-- ==== Sys2Proof/Word.lean ====
section
/-! DEFINITION. The widths of the PT430 TRHX: the 32-bit command word and registers, the 8-bit character or data byte, the 16-bit Source Memory address (00_scope.md R9, R11, R12). -/

namespace Sys2Proof

/-- A command word, RES or STATUS: 32 bits (R12). -/
abbrev Word := BitVec 32

/-- An 8-bit character code or data byte (R52, R100). -/
abbrev Byte := BitVec 8

/-- A 16-bit Source Memory address, which is also the HEX address field (R9, R11). -/
abbrev Addr := BitVec 16

end Sys2Proof
end

