-- ==== Sys2Proof/Syntax.lean ====
section
/-! DEFINITION. The ten commands of the PT430 TRHX, one constructor per row of opcode_table.json (30_encoding.md R72, R74). -/

namespace Sys2Proof

/-- A command. Each operand has exactly the width of its field in the command word (R72), so every
value of this type has an encoding; the operands stand in the order of the assembler syntax (R78). -/
inductive Instr where
  /-- TXCLR: empty the text buffer (R121). -/
  | txclr
  /-- TXPUT ch: append one raw character code (R122). -/
  | txput (ch : Byte)
  /-- RENDER: recompute the overlay mask (R130). -/
  | render
  /-- MRD row, col: read one mask pixel (R137). -/
  | mrd (row col : Byte)
  /-- GLU ch, row: look up one glyph row (R106). -/
  | glu (ch row : Byte)
  /-- SWR addr, byte: write one source byte (R161). -/
  | swr (addr : Addr) (byte : Byte)
  /-- SRD addr: read one source byte (R162). -/
  | srd (addr : Addr)
  /-- HXREC addr, n: emit one data record (R185). -/
  | hxrec (addr : Addr) (n : BitVec 5)
  /-- HXEOF: emit the end-of-file record (R186). -/
  | hxeof
  /-- ENCODE len: encode the first `len` source bytes (R187). -/
  | encode (len : BitVec 17)
deriving DecidableEq, Repr

end Sys2Proof
end

