-- ==== Sys2Proof/Decode.lean ====
section
/-! DEFINITION. Decoding a command word, total and rejecting by name, and the encoder (30_encoding.md R71 to R78). -/

namespace Sys2Proof

/-- Why a word is illegal (R75). Either way the block raises Error(ILL) (R222). -/
inductive DecodeError where
  /-- Bits 31:24 are no opcode of R74. -/
  | unassignedOpcode
  /-- The opcode is assigned, and a reserved bit of its format is nonzero. -/
  | reservedBits
deriving DecidableEq, Repr

/-- OP, bits 31:24 (R71). -/
def opField (w : Word) : Byte := w.extractLsb' 24 8

/-- CH, COL or BYTE, bits 7:0 (R72). -/
def lowByte (w : Word) : Byte := w.extractLsb' 0 8

/-- ROW, bits 15:8 (R72). -/
def rowField (w : Word) : Byte := w.extractLsb' 8 8

/-- ADDR, bits 23:8 (R72). -/
def addrField (w : Word) : Addr := w.extractLsb' 8 16

/-- N, bits 4:0 (R72). -/
def countField (w : Word) : BitVec 5 := w.extractLsb' 0 5

/-- LEN, bits 16:0 (R72). -/
def lenField (w : Word) : BitVec 17 := w.extractLsb' 0 17

/-- The command `i`, unless one of its format's reserved bits is nonzero (R75). -/
def whenZero {k : Nat} (reserved : BitVec k) (i : Instr) : Except DecodeError Instr :=
  if reserved = 0 then .ok i else .error .reservedBits

/-- The command a word stands for: opcode first, then the reserved bits of its format (R72, R74, R75). -/
def decode (w : Word) : Except DecodeError Instr :=
  if opField w = 0x01#8 then whenZero (w.extractLsb' 0 24) .txclr
  else if opField w = 0x02#8 then whenZero (w.extractLsb' 8 16) (.txput (lowByte w))
  else if opField w = 0x03#8 then whenZero (w.extractLsb' 0 24) .render
  else if opField w = 0x04#8 then whenZero (w.extractLsb' 16 8) (.mrd (rowField w) (lowByte w))
  else if opField w = 0x05#8 then whenZero (w.extractLsb' 16 8) (.glu (lowByte w) (rowField w))
  else if opField w = 0x10#8 then .ok (.swr (addrField w) (lowByte w))
  else if opField w = 0x11#8 then whenZero (w.extractLsb' 0 8) (.srd (addrField w))
  else if opField w = 0x12#8 then whenZero (w.extractLsb' 5 3) (.hxrec (addrField w) (countField w))
  else if opField w = 0x13#8 then whenZero (w.extractLsb' 0 24) .hxeof
  else if opField w = 0x14#8 then whenZero (w.extractLsb' 17 7) (.encode (lenField w))
  else .error .unassignedOpcode

/-- The word of a command, as the assembler forms it (R78). -/
def encode : Instr → Word
  | .txclr => 0x01000000#32
  | .txput ch => 0x02000000#32 ||| ch.setWidth 32
  | .render => 0x03000000#32
  | .mrd row col => 0x04000000#32 ||| row.setWidth 32 <<< 8 ||| col.setWidth 32
  | .glu ch row => 0x05000000#32 ||| row.setWidth 32 <<< 8 ||| ch.setWidth 32
  | .swr addr byte => 0x10000000#32 ||| addr.setWidth 32 <<< 8 ||| byte.setWidth 32
  | .srd addr => 0x11000000#32 ||| addr.setWidth 32 <<< 8
  | .hxrec addr n => 0x12000000#32 ||| addr.setWidth 32 <<< 8 ||| n.setWidth 32
  | .hxeof => 0x13000000#32
  | .encode len => 0x14000000#32 ||| len.setWidth 32

/-- The `nbits` bits of an opcode-table row as the 32-bit word the host writes to CMD, the bits above
`nbits` zero. The word is delivered whole on a 32-bit port, so no byte order arises (R51, R71; log entry 16). -/
def tableWord (nbits w : Nat) : Word := BitVec.ofNat 32 (w % 2 ^ nbits)

/-- What the decoder reads from that word; none where the word is illegal. -/
def decodeTableWord (nbits w : Nat) : Option Instr :=
  match decode (tableWord nbits w) with
  | .ok i => some i
  | .error _ => none

end Sys2Proof
end

