-- ==== Sys2Proof/Config.lean ====
section
/-! DEFINITION. The open parameter of the PT430 TRHX: the glyph bitmaps GLYPH_ROM (00_scope.md R10, 10_state.md R25). -/

namespace Sys2Proof

/-- A glyph: 7 rows of 5 one-bit pixels (R3). Row r is scan-line r, column c counts from the left edge (R103). -/
abbrev Glyph := Vector (Vector Bool 5) 7

/-- A font: the glyph of each normalised code. Only the 38 defined codes other than space are ever
looked up (R10); the space glyph is fixed at zero by `Machine.glyphOf` (R102). -/
abbrev GlyphRom := Byte → Glyph

/-- GLYPH_ROM, the device's font. The sources do not give it, so nothing may be assumed of it
(R10, D14): a constant with no body. It is no state, and reset leaves it alone (R25). Log entry 3. -/
opaque Config.glyphRom : GlyphRom

end Sys2Proof
end

