-- ==== Sys2Proof/Machine/State.lean ====
section
/-! DEFINITION. The state of the PT430 TRHX, its value after reset, and the reasons a step can stop (10_state.md, 60_exceptions.md R233). -/

namespace Sys2Proof.Machine

/-- The overlay mask: 7 rows of 128 one-bit pixels, row r the font scan-line r, column c counted from the left (R2, R24). -/
abbrev Mask := Vector (Vector Bool 128) 7

/-- The Source Memory: the bytes SWR has written since reset, by address, strictly rising. An address
that is not listed holds no value the model knows (R27, R53; log entry 1). -/
abbrev Memory := List Host.Cell

/-- What the host can do to the block: the four ports of R29, and reset (R250). -/
inductive HostAction where
  /-- Write a command word to CMD. -/
  | writeCmd (w : Word)
  /-- Read the RES port. -/
  | readRes
  /-- Read the STATUS port. -/
  | readStatus
  /-- Read the HOUT port, which removes the character it returns. -/
  | readHout
  /-- Assert reset (R250). -/
  | reset
deriving DecidableEq, Repr

/-- A value a port has returned to the host (R29). -/
inductive PortValue where
  | res (v : Word)
  | status (v : Word)
  | hout (c : Byte)
deriving DecidableEq, Repr

/-- The state. The first seven fields are the block's (R21 to R27). `pending` and `received` are the
MODEL'S OWN and stand for the host: what it has issued and not yet completed, oldest first, and what
the ports have returned to it, oldest first (R20, R29, R70; log entry 4). -/
structure State where
  /-- RES, the result register (R21). -/
  res : Word
  /-- STATUS: bit 0 ERR_ILL, bit 1 ERR_RANGE, bit 2 TRUNC, bits 31:3 hardwired 0 (R22). -/
  status : Word
  /-- TLEN, 4 bits holding 0 to 14 (R23). -/
  tlen : BitVec 4
  /-- TBUF[0] to TBUF[13], raw codes (R23). -/
  tbuf : Vector Byte 14
  /-- MASK (R24). -/
  mask : Mask
  /-- HOUT, the encoder's output stream, front first (R26). -/
  hout : List Byte
  /-- SRC (R27). -/
  src : Memory
  /-- The host's actions still to be carried out, oldest first. -/
  pending : List HostAction
  /-- What the host has read, oldest first. -/
  received : List PortValue
deriving DecidableEq, Repr

/-- Why a step stops. -/
inductive Fault where
  /-- SrcUnwritten(a): SRD, HXREC or ENCODE would read a source byte that no SWR has written since
  reset (R53, R233). Safe: hardware returns an unspecified byte and goes on. Log entry 1. -/
  | srcUnwritten (addr : Nat)
  /-- The host waits on a read of an empty HOUT and has issued nothing else (R29, R233): the machine
  is stuck until a command that appends to HOUT is issued. Raised by a step alone, never by a command.
  Safe. Log entry 5. -/
  | houtReadStuck
deriving DecidableEq, Repr

/-- Why a step has no meaning. -/
inductive Refusal where
  /-- The command has no meaning in this model yet. Safe. No arm of `exec` uses it. -/
  | notModelled (mnemonic : String)
deriving DecidableEq, Repr

/-- The machine right after reset (R250): RES, STATUS and TLEN zero, the mask clear, HOUT empty, no
source byte written. TBUF is unspecified there and zero here (log entry 2). The host has issued
nothing and read nothing (log entry 4). -/
def State.reset : State where
  res := 0
  status := 0
  tlen := 0
  tbuf := Vector.replicate 14 0
  mask := Vector.replicate 7 (Vector.replicate 128 false)
  hout := []
  src := []
  pending := []
  received := []

end Sys2Proof.Machine
end

