-- ==== Sys2Proof/Machine/Flags.lean ====
section
/-! DEFINITION. The fields of STATUS, how each is set and cleared, and what the STATUS port returns (10_state.md R22, 60_exceptions.md R220, R227). -/

namespace Sys2Proof.Machine

/-- The kinds of error (R220). -/
inductive ErrorKind where
  /-- Illegal command word (R222). -/
  | ill
  /-- Operand out of range (R223). -/
  | range
deriving DecidableEq, Repr

/-- The STATUS bit of an error kind: ERR_ILL is bit 0, ERR_RANGE is bit 1 (R22). -/
def ErrorKind.mask : ErrorKind → Word
  | .ill => 0x1#32
  | .range => 0x2#32

/-- TRUNC is bit 2 (R22). -/
def truncMask : Word := 0x4#32

/-- STATUS with an error bit set, every other bit as it was (R221, R227). -/
def setError (k : ErrorKind) (status : Word) : Word := status ||| k.mask

/-- STATUS with TRUNC set (R122). -/
def setTrunc (status : Word) : Word := status ||| truncMask

/-- STATUS with TRUNC cleared (R121). -/
def clearTrunc (status : Word) : Word := status &&& ~~~truncMask

/-- What the STATUS port returns: bits 31:3 are hardwired to 0 (R22, R29; log entry 10). -/
def statusRead (status : Word) : Word := status &&& 0x7#32

/-- ERR_ILL (R22). -/
def State.errIll (s : State) : Bool := s.status.getLsbD 0

/-- ERR_RANGE (R22). -/
def State.errRange (s : State) : Bool := s.status.getLsbD 1

/-- TRUNC (R22). -/
def State.trunc (s : State) : Bool := s.status.getLsbD 2

end Sys2Proof.Machine
end

