-- ==== Sys2Proof/Machine/Ops.lean ====
section
/-! DEFINITION. The operations the commands share: the pseudocode primitives of 00_scope.md section 4 over RES, STATUS, the text buffer, the mask, the Source Memory and HOUT, and `raise Error(kind)` (60_exceptions.md R221). -/

namespace Sys2Proof.Machine

/-- How a step of this machine ends. -/
abbrev Outcome := Host.Outcome State Fault Refusal

/-- `RES <- v` (R21). -/
def State.setRes (s : State) (v : Word) : State := { s with res := v }

/-- `raise Error(kind)`: the bit of `kind` is set in STATUS and nothing else changes. There is no
trap entry and no return from one; the block goes on with the next command (R221, R229, R230). -/
def State.raise (k : ErrorKind) (s : State) : State := { s with status := setError k s.status }

/-! ### The text buffer (R23) -/

/-- `TBUF[0 .. TLEN-1]`, the codes RENDER reads. -/
def State.text (s : State) : List Byte := s.tbuf.toList.take s.tlen.toNat

/-- Empty the text buffer and clear TRUNC; TBUF keeps its bytes (R121). -/
def State.clearText (s : State) : State := { s with tlen := 0, status := clearTrunc s.status }

/-- Append one raw code, or drop it and set TRUNC when 14 codes are held (R122). TLEN = 15, which no
run reaches, counts as full (log entry 9). -/
def State.pushChar (s : State) (ch : Byte) : State :=
  if h : s.tlen.toNat < 14 then
    { s with tbuf := s.tbuf.set s.tlen.toNat ch h, tlen := s.tlen + 1 }
  else { s with status := setTrunc s.status }

/-! ### The overlay mask (R24) -/

/-- `MaskRead(r, c)`. A position outside the grid, which no command reads, is 0 (log entry 14). -/
def maskRead (m : Mask) (r c : Nat) : Bool :=
  if h : r < 7 ∧ c < 128 then (m[r]'h.1)[c]'h.2 else false

/-- `MaskSet(r, c)`: set one pixel to 1. A position outside the grid is not written. -/
def maskSet (m : Mask) (r c : Nat) : Mask :=
  if h : r < 7 ∧ c < 128 then m.set r ((m[r]'h.1).set c true h.2) h.1 else m

/-- `MaskClear()`: all 896 pixels 0. -/
def maskClear : Mask := Vector.replicate 7 (Vector.replicate 128 false)

/-! ### The Source Memory (R27, R52, R53) -/

/-- The byte listed at an address; none where nothing has been written since reset (R53; log entry 1). -/
def memRead : Memory → Nat → Option Byte
  | [], _ => none
  | (k, v) :: m, a => if k = a then some v else memRead m a

/-- `SrcWrite(a, v)` on the list, which stays in rising order (R52). -/
def memWrite : Memory → Nat → Byte → Memory
  | [], a, v => [(a, v)]
  | (k, x) :: m, a, v =>
    if k < a then (k, x) :: memWrite m a v
    else if k = a then (a, v) :: m
    else (a, v) :: (k, x) :: m

/-- The canonical form: addresses strictly rising, all of them in 0x0000 to 0xFFFF. Every listed
byte has been written, and an unlisted one has no value, so equal memories are equal lists. -/
abbrev Memory.wf (m : Memory) : Prop :=
  m.Pairwise (fun x y => x.1 < y.1) ∧ ∀ c ∈ m, c.1 < 0x10000

/-- `SrcRead(a)`: the byte, or the model fault SrcUnwritten(a) (R52, R53). -/
def srcRead (m : Memory) (a : Nat) : Except Fault Byte :=
  match memRead m a with
  | some b => .ok b
  | none => .error (.srcUnwritten a)

/-- The `n` bytes from address `a` up, read in rising order; the first unwritten one faults (R185, R187; log entry 13). -/
def srcReadBytes (m : Memory) (a : Nat) : Nat → Except Fault (List Byte)
  | 0 => .ok []
  | n + 1 =>
    match srcRead m a with
    | .error f => .error f
    | .ok b =>
      match srcReadBytes m (a + 1) n with
      | .error f => .error f
      | .ok bs => .ok (b :: bs)

/-- `SrcWrite(a, v)` (R52, R161). -/
def State.srcWrite (s : State) (a : Addr) (v : Byte) : State :=
  { s with src := memWrite s.src a.toNat v }

/-! ### The output stream (R26) -/

/-- `Emit(s)`: append characters to the end of HOUT. -/
def State.emit (s : State) (cs : List Byte) : State := { s with hout := s.hout ++ cs }

/-! ### Ending a command -/

/-- Go on with what a read of the Source Memory gave, or stop with its fault (R233). -/
def onRead {α : Type} (r : Except Fault α) (k : α → State) : Outcome :=
  match r with
  | .ok x => .next (k x)
  | .error f => .fault f

end Sys2Proof.Machine
end

