-- ==== Sys2Proof/Machine/Operands.lean ====
section
/-! DEFINITION. The operand ranges of the four commands that have any (60_exceptions.md R223), and the command that checks one first. -/

namespace Sys2Proof.Machine

/-- ROW of GLU: a glyph row, 0 to 6 (R106, R223). -/
def glyphRowInRange (row : Byte) : Bool := row.toNat ≤ 6

/-- ROW and COL of MRD: a mask pixel, row 0 to 6 and column 0 to 127 (R137, R223). -/
def pixelInRange (row col : Byte) : Bool := row.toNat ≤ 6 && col.toNat ≤ 127

/-- ADDR and N of HXREC: 1 to 16 bytes that end at 0xFFFF at most (R185, R223). -/
def chunkInRange (addr : Addr) (n : BitVec 5) : Bool :=
  n.toNat ≠ 0 && n.toNat ≤ 16 && addr.toNat + n.toNat ≤ 0x10000

/-- LEN of ENCODE: at most the whole Source Memory (R187, R223). -/
def lenInRange (len : BitVec 17) : Bool := len.toNat ≤ 0x10000

/-- Run a command whose operands are in range; otherwise raise Error(RANGE), with no other effect and
no source byte read (R221, R223, R224). -/
def whenInRange (ok : Bool) (s : State) (run : Outcome) : Outcome :=
  if ok then run else .next (s.raise .range)

end Sys2Proof.Machine
end

