-- ==== Sys2Proof/Machine/Font.lean ====
section
/-! DEFINITION. The Font ROM's lookup and the command GLU (40_font.md R100 to R106). -/

namespace Sys2Proof.Machine

/-- Case folding: 'a' to 'z' become 'A' to 'Z' (R100). -/
def norm (b : Byte) : Byte :=
  if 0x61 ≤ b.toNat ∧ b.toNat ≤ 0x7A then b - 0x20#8 else b

/-- The code is one of the 39 defined ones, after case folding (R101). -/
def isDefined (b : Byte) : Bool :=
  let n := (norm b).toNat
  n = 0x20 || n = 0x2D || (0x30 ≤ n && n ≤ 0x39) || n = 0x3A || (0x41 ≤ n && n ≤ 0x5A)

/-- The code is the space (R102). -/
def isSpace (b : Byte) : Bool := norm b = 0x20#8

/-- The code is '1' or 'I', after case folding (R104). -/
def isNarrow (b : Byte) : Bool := norm b = 0x31#8 || norm b = 0x49#8

/-- How many glyph columns RENDER draws: 4 of a narrow character, else 5 (R104). -/
def drawnWidth (b : Byte) : Nat := if isNarrow b then 4 else 5

/-- The glyph of the space: every bit 0 (R102). -/
def blankGlyph : Glyph := Vector.replicate 7 (Vector.replicate 5 false)

/-- `Glyph(n)` of a normalised defined code: the font's, but for the space (R102, R103). -/
def glyphOf (rom : GlyphRom) (n : Byte) : Glyph := if n = 0x20#8 then blankGlyph else rom n

/-- `g[r][c]`; a position outside the 7 by 5 grid, which no command reads, is 0 (R103; log entry 14). -/
def glyphBit (g : Glyph) (r c : Nat) : Bool :=
  if h : r < 7 ∧ c < 5 then (g[r]'h.1)[c]'h.2 else false

/-- The source's `glyph(char)`: none is its "undefined" (R101, R105). -/
def glyphLookup (rom : GlyphRom) (b : Byte) : Option Glyph :=
  if isDefined b then some (glyphOf rom (norm b)) else none

/-- The RES value of GLU: bit c is column c of the row, bit 8 DEFINED, bit 9 NARROW, bit 10 SPACE; 0
for an undefined code (R106). -/
def gluReport (rom : GlyphRom) (ch : Byte) (row : Nat) : Word :=
  match glyphLookup rom ch with
  | none => 0
  | some g =>
    (BitVec.ofBool (isSpace ch) ++ BitVec.ofBool (isNarrow ch) ++ 1#1 ++ 0#3 ++
      BitVec.ofBool (glyphBit g row 4) ++ BitVec.ofBool (glyphBit g row 3) ++
      BitVec.ofBool (glyphBit g row 2) ++ BitVec.ofBool (glyphBit g row 1) ++
      BitVec.ofBool (glyphBit g row 0)).setWidth 32

/-- GLU ch, row (R106). -/
def execGlu (ch row : Byte) (s : State) : Outcome :=
  whenInRange (glyphRowInRange row) s
    (.next (s.setRes (gluReport Config.glyphRom ch row.toNat)))

end Sys2Proof.Machine
end

