-- ==== Sys2Proof/Machine/Hex.lean ====
section
/-! DEFINITION. The Intel-HEX record format and the commands HXREC, HXEOF and ENCODE (43_hex.md R180 to R190). -/

namespace Sys2Proof.Machine

/-! ### Record format -/

/-- The uppercase hexadecimal digit of a 4-bit value, as an ASCII code (R181). -/
def hexDigit (v : BitVec 4) : Byte :=
  if v.toNat ≤ 9 then BitVec.ofNat 8 (0x30 + v.toNat) else BitVec.ofNat 8 (0x41 + (v.toNat - 10))

/-- Two digits, the high one first (R181). -/
def hex2 (v : Byte) : List Byte := [hexDigit (v.extractLsb' 4 4), hexDigit (v.extractLsb' 0 4)]

/-- Four digits, the high byte first (R51, R181). -/
def hex4 (a : Addr) : List Byte := hex2 (a.extractLsb' 8 8) ++ hex2 (a.extractLsb' 0 8)

/-- The integer sum of the fields the checksum covers: count, both address bytes, type, data (R182). -/
def recordSum (n : Byte) (a : Addr) (t : Byte) (data : List Byte) : Nat :=
  n.toNat + (a.extractLsb' 8 8).toNat + (a.extractLsb' 0 8).toNat + t.toNat +
    (data.map BitVec.toNat).sum

/-- The checksum: the two's complement of the sum, 8 bits (R182). -/
def checksum (n : Byte) (a : Addr) (t : Byte) (data : List Byte) : Byte :=
  BitVec.ofNat 8 ((256 - recordSum n a t data % 256) % 256)

/-- ':' (R180). -/
def colon : Byte := 0x3A#8

/-- The line terminator, LF alone (R183). -/
def lineFeed : Byte := 0x0A#8

/-- `Record(a, d_0 .. d_(n-1))`, a data record (R180). -/
def dataRecord (a : Addr) (data : List Byte) : List Byte :=
  let n := BitVec.ofNat 8 data.length
  [colon] ++ hex2 n ++ hex4 a ++ hex2 0x00#8 ++ data.flatMap hex2 ++
    hex2 (checksum n a 0x00#8 data) ++ [lineFeed]

/-- The end-of-file record `:00000001FF` LF (R184). -/
def eofRecord : List Byte :=
  [0x3A#8, 0x30#8, 0x30#8, 0x30#8, 0x30#8, 0x30#8, 0x30#8, 0x30#8, 0x31#8, 0x46#8, 0x46#8, 0x0A#8]

/-! ### Commands -/

/-- The data record of the `n` source bytes from `a` up (R185). -/
def chunkRecord (m : Memory) (a n : Nat) : Except Fault (List Byte) :=
  match srcReadBytes m a n with
  | .ok data => .ok (dataRecord (BitVec.ofNat 16 a) data)
  | .error f => .error f

/-- ENCODE's loop from address `a` on, and the EOF record after it (R187). `fuel` bounds the number of
chunks; `encodeText` gives enough of it. -/
def encodeFrom (m : Memory) (len : Nat) : Nat → Nat → Except Fault (List Byte)
  | 0, _ => .ok eofRecord
  | fuel + 1, a =>
    if a < len then
      match chunkRecord m a (min 16 (len - a)) with
      | .error f => .error f
      | .ok first =>
        match encodeFrom m len fuel (a + 16) with
        | .error f => .error f
        | .ok rest => .ok (first ++ rest)
    else .ok eofRecord

/-- What ENCODE appends: the records of `SRC[0 .. len-1]` in chunks of at most 16 bytes, then the EOF
record (R187). There are `(len + 15) / 16` chunks. -/
def encodeText (m : Memory) (len : Nat) : Except Fault (List Byte) :=
  encodeFrom m len ((len + 15) / 16) 0

/-- HXREC addr, n (R185). -/
def execHxrec (addr : Addr) (n : BitVec 5) (s : State) : Outcome :=
  whenInRange (chunkInRange addr n) s
    (onRead (chunkRecord s.src addr.toNat n.toNat) s.emit)

/-- HXEOF (R186). -/
def execHxeof (s : State) : Outcome := .next (s.emit eofRecord)

/-- ENCODE len: nothing is appended where a byte is unwritten (R187). One step (R258; log entry 8). -/
def execEncode (len : BitVec 17) (s : State) : Outcome :=
  whenInRange (lenInRange len) s (onRead (encodeText s.src len.toNat) s.emit)

end Sys2Proof.Machine
end

