-- ==== Sys2Proof/Machine/Render.lean ====
section
/-! DEFINITION. The text buffer commands, the layout, RENDER and MRD (41_render.md R121 to R138). -/

namespace Sys2Proof.Machine

/-- TXCLR (R121). -/
def execTxclr (s : State) : Outcome := .next s.clearText

/-- TXPUT ch (R122). -/
def execTxput (ch : Byte) (s : State) : Outcome := .next (s.pushChar ch)

/-! ### Layout (R123 to R125, R133) -/

/-- A character RENDER draws: defined and not the space (R123). -/
def isDrawn (b : Byte) : Bool := isDefined b && !isSpace b

/-- D, the drawn count (R123). -/
def drawnCount (text : List Byte) : Nat := text.countP isDrawn

/-- K, the narrow count (R123). -/
def narrowCount (text : List Byte) : Nat := text.countP fun b => isDefined b && isNarrow b

/-- W, the text width, a signed integer (R124). -/
def textWidth (text : List Byte) : Int := 7 * drawnCount text - 2 - narrowCount text

/-- S, the start offset; the division truncates (R125). -/
def startOffset (text : List Byte) : Int := 16 + (96 - textWidth text).tdiv 2 + 1

/-- The RES value of RENDER: K, D, W mod 256, S, one byte each from the top (R133). -/
def layoutReport (text : List Byte) : Word :=
  BitVec.ofNat 8 (narrowCount text) ++ BitVec.ofNat 8 (drawnCount text) ++
    BitVec.ofInt 8 (textWidth text) ++ BitVec.ofInt 8 (startOffset text)

/-! ### The cursor walk (R126 to R132) -/

/-- Draw the first `wd` columns of one glyph row with its column 0 at `cur`. A pixel left of column 0
or right of column 127 is not written (R128, R129, R132). -/
def drawGlyphRow (g : Glyph) (line : Nat) (cur : Int) (wd : Nat) (m : Mask) : Mask :=
  (List.range wd).foldl
    (fun m (col : Nat) =>
      let x : Int := cur + col
      if glyphBit g line col && decide (0 ≤ x) && decide (x < 128) then maskSet m line x.toNat else m)
    m

/-- The mask column of glyph column 0 of a drawn character reached at `cur`: a narrow one first moves the
cursor one pixel left (R128, R129). -/
def placeCursor (t : Byte) (cur : Int) : Int := if isNarrow t then cur - 1 else cur

/-- The cursor behind a character reached at `cur`: 7 on for a space, unmoved for an undefined code, 7
behind its own place for a drawn one (R126 to R129). -/
def advanceCursor (t : Byte) (cur : Int) : Int :=
  if isSpace t then cur + 7
  else if !isDefined t then cur
  else placeCursor t cur + 7

/-- Walk the characters along one scan-line (R126 to R129). -/
def walkLine (rom : GlyphRom) (line : Nat) : List Byte → Int → Mask → Mask
  | [], _, m => m
  | t :: ts, cur, m =>
    walkLine rom line ts (advanceCursor t cur)
      (if isDrawn t then drawGlyphRow (glyphOf rom (norm t)) line (placeCursor t cur) (drawnWidth t) m
       else m)

/-- The mask RENDER computes from a text: clear, then each scan-line from the start offset (R130). -/
def renderMask (rom : GlyphRom) (text : List Byte) : Mask :=
  (List.range 7).foldl (fun m line => walkLine rom line text (startOffset text) m) maskClear

/-- RENDER (R130). -/
def execRender (s : State) : Outcome :=
  .next { s with mask := renderMask Config.glyphRom s.text, res := layoutReport s.text }

/-- MRD row, col (R137). -/
def execMrd (row col : Byte) (s : State) : Outcome :=
  whenInRange (pixelInRange row col) s
    (.next (s.setRes ((BitVec.ofBool (maskRead s.mask row.toNat col.toNat)).setWidth 32)))

end Sys2Proof.Machine
end

