-- ==== Sys2Proof/Machine/Source.lean ====
section
/-! DEFINITION. The Source Memory commands SWR and SRD (42_source.md R161, R162). -/

namespace Sys2Proof.Machine

/-- SWR addr, byte (R161). -/
def execSwr (addr : Addr) (byte : Byte) (s : State) : Outcome := .next (s.srcWrite addr byte)

/-- SRD addr: RES gets the byte, zero-extended; an unwritten byte is the fault SrcUnwritten (R162, R53). -/
def execSrd (addr : Addr) (s : State) : Outcome :=
  onRead (srcRead s.src addr.toNat) fun b => s.setRes (b.setWidth 32)

end Sys2Proof.Machine
end

