-- ==== Sys2Proof/Machine/Dispatch.lean ====
section
/-! DEFINITION. The meaning of each command, one arm per row of opcode_table.json. -/

namespace Sys2Proof.Machine

def exec (i : Instr) (s : State) : Host.Outcome State Fault Refusal :=
  match i with
  | .txclr => Sys2Proof.Machine.execTxclr s
  | .txput ch => Sys2Proof.Machine.execTxput ch s
  | .render => Sys2Proof.Machine.execRender s
  | .mrd row col => Sys2Proof.Machine.execMrd row col s
  | .glu ch row => Sys2Proof.Machine.execGlu ch row s
  | .swr addr byte => Sys2Proof.Machine.execSwr addr byte s
  | .srd addr => Sys2Proof.Machine.execSrd addr s
  | .hxrec addr n => Sys2Proof.Machine.execHxrec addr n s
  | .hxeof => Sys2Proof.Machine.execHxeof s
  | .encode len => Sys2Proof.Machine.execEncode len s

end Sys2Proof.Machine
end

