-- ==== Sys2Proof/Machine/Ports.lean ====
section
/-! DEFINITION. The host's side: which of its actions comes next, the port reads, an illegal word and reset (10_state.md R20, R29, R30, 60_exceptions.md R222, R233, 70_reset_and_hazards.md R250). -/

namespace Sys2Proof.Machine

/-- The action to carry out next, with the actions then left: the oldest one that can go ahead. Only a
read of an empty HOUT cannot: it waits where it is until a later command has appended (R29, R233, D33;
log entry 5). Command words keep the host's order (R20, R70). -/
def selectAction (hout : List Byte) : List HostAction → Option (HostAction × List HostAction)
  | [] => none
  | a :: rest =>
    if a = .readHout ∧ hout = [] then
      match selectAction hout rest with
      | some (b, left) => some (b, a :: left)
      | none => none
    else some (a, rest)

/-- The state with other actions pending. -/
def State.withPending (s : State) (left : List HostAction) : State := { s with pending := left }

/-- A port returns a value to the host. -/
def State.deliver (s : State) (v : PortValue) : State := { s with received := s.received ++ [v] }

/-- A word the decoder rejects: Error(ILL), whatever the reason (R75, R222). -/
def illegalWord (s : State) : Outcome := .next (s.raise .ill)

/-- The host reads RES: no side effect (R29, R30). -/
def readResPort (s : State) : Outcome := .next (s.deliver (.res s.res))

/-- The host reads STATUS: no side effect (R29, R30). -/
def readStatusPort (s : State) : Outcome := .next (s.deliver (.status (statusRead s.status)))

/-- The host reads HOUT: the first character is returned and removed; a read of an empty HOUT has no
step (R29, R30). -/
def readHoutPort (s : State) : Outcome :=
  match s.hout with
  | c :: cs => .next ({ s with hout := cs }.deliver (.hout c))
  | [] => .fault .houtReadStuck

/-- Reset: every field of the block at its reset value. The host's own record of what it issued and
read is not the block's and stays (R250, R251; log entry 7). -/
def resetBlock (s : State) : Outcome :=
  .next { State.reset with pending := s.pending, received := s.received }

/-- No action can go ahead. With nothing issued the block waits for the next command and nothing
changes (R20, R250; log entry 6); with a read of an empty HOUT waiting, the machine is stuck (R233; log
entry 5). -/
def waitForHost (s : State) : Outcome :=
  if s.pending = [] then .next s else .fault .houtReadStuck

end Sys2Proof.Machine
end

