-- ==== Sys2Proof/Machine/Step.lean ====
section
/-! DEFINITION. One step: the host's next action is carried out (10_state.md R20, 30_encoding.md R70). There is no program counter and no fetch from memory (R28, R61): a program is the words the host writes to CMD. -/

namespace Sys2Proof.Machine

/-- Carry out the host's next action. A word written to CMD is decoded and run whole, as one step
(R20, R54); an illegal word raises Error(ILL) (R75). A fault ends the run (R233; log entry 11), and a
step takes no time (R262; log entry 15). -/
def step (s : State) : Host.Outcome State Fault Refusal :=
  match selectAction s.hout s.pending with
  | none => waitForHost s
  | some (action, left) =>
    match action with
    | .writeCmd w =>
      match decode w with
      | .ok i => exec i (s.withPending left)
      | .error _ => illegalWord (s.withPending left)
    | .readRes => readResPort (s.withPending left)
    | .readStatus => readStatusPort (s.withPending left)
    | .readHout => readHoutPort (s.withPending left)
    | .reset => resetBlock (s.withPending left)

/-- The state in which the host's next action is to write this word to CMD, so that the very next step
runs it. It stands for the host's write: the block loads no program (R28, R70; log entry 4). -/
def State.withFetchWord (s : State) (nbits w : Nat) : State :=
  s.withPending (.writeCmd (tableWord nbits w) :: s.pending)

end Sys2Proof.Machine
end

