-- ==== Sys2Proof/Syntax/Assembly.lean ====
section
/-! DEFINITION. The assembler's source lines: the ten command forms and the three pseudo-instructions (30_encoding.md R78, R79). -/

namespace Sys2Proof

/-- An operand as written: a number (decimal or `0x` hexadecimal) or a quoted character (R78). -/
inductive Operand where
  | num (n : Nat)
  | chr (c : Char)
deriving DecidableEq, Repr

/-- One source line. Numeric operands are not yet bounded by their fields: `Asm.wellFormed` checks that (R78). -/
inductive Asm where
  | txclr
  | txput (ch : Operand)
  | render
  | mrd (row col : Operand)
  | glu (ch row : Operand)
  | swr (addr byte : Operand)
  | srd (addr : Operand)
  | hxrec (addr n : Operand)
  | hxeof
  | encode (len : Operand)
  /-- TXSTR "s" (R79). -/
  | txstr (s : List Char)
  /-- LOADBUF addr, b0, ..., b(m-1) (R79). -/
  | loadbuf (addr : Operand) (bytes : List Operand)
  /-- FILL addr, m, v (R79). -/
  | fill (addr m v : Operand)
deriving DecidableEq, Repr

end Sys2Proof
end

