-- ==== Sys2Proof/WellFormed.lean ====
section
/-! DEFINITION. What the assembler refuses: an operand that does not fit its field, and a LOADBUF or FILL that would run past the last source byte (30_encoding.md R78, R79). A value of `Instr` needs no check: its operand types are its fields' widths (R72). -/

namespace Sys2Proof

/-- The number an operand stands for: a quoted character stands for its ASCII code (R78). -/
def Operand.value : Operand → Nat
  | .num n => n
  | .chr c => c.toNat

/-- A quoted character must have an ASCII code (R78; log entry 12). -/
def Operand.ascii : Operand → Bool
  | .num _ => true
  | .chr c => c.toNat < 128

/-- The operand fits a field of `width` bits (R78). -/
def Operand.fits (width : Nat) (o : Operand) : Bool :=
  o.ascii && o.value < 2 ^ width

/-- The assembler accepts the line (R78, R79). The field widths are those of R72. A value that fits
its field but lies outside the command's range is accepted: the block reports it (R77). -/
def Asm.wellFormed : Asm → Bool
  | .txclr => true
  | .txput ch => ch.fits 8
  | .render => true
  | .mrd row col => row.fits 8 && col.fits 8
  | .glu ch row => ch.fits 8 && row.fits 8
  | .swr addr byte => addr.fits 16 && byte.fits 8
  | .srd addr => addr.fits 16
  | .hxrec addr n => addr.fits 16 && n.fits 5
  | .hxeof => true
  | .encode len => len.fits 17
  | .txstr s => s.all fun c => (Operand.chr c).fits 8
  | .loadbuf addr bytes =>
      addr.fits 16 && bytes.all (fun b => b.fits 8) && addr.value + bytes.length ≤ 0x10000
  | .fill addr m v =>
      addr.fits 16 && m.ascii && v.fits 8 && addr.value + m.value ≤ 0x10000

end Sys2Proof
end

