-- ==== Sys2Proof/Machine/Assembler.lean ====
section
/-! DEFINITION. The host's assembler: a source line's text, its commands and its words (30_encoding.md R78, R79). It is no part of the block; it turns a program's text into what the host writes to CMD (R70). -/

namespace Sys2Proof.Machine

/-! ### Expansion -/

/-- The `SWR` commands that write consecutive bytes from `addr` up (R79). -/
def loadCommands (addr : Nat) : List Operand → List Instr
  | [] => []
  | b :: bs => .swr (BitVec.ofNat 16 addr) (BitVec.ofNat 8 b.value) :: loadCommands (addr + 1) bs

/-- The commands a line stands for: one, or a pseudo-instruction's exact expansion (R78, R79). -/
def expand : Asm → List Instr
  | .txclr => [.txclr]
  | .txput ch => [.txput (BitVec.ofNat 8 ch.value)]
  | .render => [.render]
  | .mrd row col => [.mrd (BitVec.ofNat 8 row.value) (BitVec.ofNat 8 col.value)]
  | .glu ch row => [.glu (BitVec.ofNat 8 ch.value) (BitVec.ofNat 8 row.value)]
  | .swr addr byte => [.swr (BitVec.ofNat 16 addr.value) (BitVec.ofNat 8 byte.value)]
  | .srd addr => [.srd (BitVec.ofNat 16 addr.value)]
  | .hxrec addr n => [.hxrec (BitVec.ofNat 16 addr.value) (BitVec.ofNat 5 n.value)]
  | .hxeof => [.hxeof]
  | .encode len => [.encode (BitVec.ofNat 17 len.value)]
  | .txstr s => .txclr :: s.map fun c => .txput (BitVec.ofNat 8 c.toNat)
  | .loadbuf addr bytes => loadCommands addr.value bytes
  | .fill addr m v => loadCommands addr.value (List.replicate m.value v)

/-- The words of a line the assembler accepts (R78). -/
def assemble (a : Asm) : Option (List Word) :=
  if a.wellFormed then some ((expand a).map encode) else none

/-! ### The text of a line (R78; log entry 12) -/

/-- A lexical token. -/
inductive Token where
  | word (cs : List Char)
  | comma
  | chr (c : Char)
  | str (cs : List Char)
deriving DecidableEq, Repr

/-- The tokens with the word read so far, if any, before them. -/
def flushWord (w : List Char) (ts : List Token) : List Token :=
  if w = [] then ts else .word w.reverse :: ts

/-- The double quote that encloses TXSTR's string. -/
def stringQuote : Char := Char.ofNat 0x22

/-- The quote that encloses a character operand. -/
def charQuote : Char := Char.ofNat 0x27

/-- Read the tokens of a line. `quoted` is the string read so far, reversed, when inside one; `w` is
the word read so far, reversed. DESIGN CHOICE (log entry 12): a quote ends the word before it, so no blank
need stand between a mnemonic and a quoted operand, and blanks around commas are free. -/
def lex (quoted : Option (List Char)) (w : List Char) : List Char → Option (List Token)
  | [] =>
    match quoted with
    | none => some (flushWord w [])
    | some _ => none
  | c :: rest =>
    match quoted with
    | some s =>
      if c = stringQuote then (lex none [] rest).map (.str s.reverse :: ·)
      else lex (some (c :: s)) [] rest
    | none =>
      if c = stringQuote then (lex (some []) [] rest).map (flushWord w)
      else if c = charQuote then
        match rest with
        | d :: e :: rest' => if e = charQuote then (lex none [] rest').map fun ts => flushWord w (.chr d :: ts) else none
        | _ => none
      else if c = ',' then (lex none [] rest).map fun ts => flushWord w (.comma :: ts)
      else if c = ' ' ∨ c = '\t' then (lex none [] rest).map (flushWord w)
      else if c.isAlphanum then lex none (c :: w) rest
      else none

/-- The value of a digit in base 16 (R78). -/
def digitValue (c : Char) : Option Nat :=
  let n := c.toNat
  if 0x30 ≤ n ∧ n ≤ 0x39 then some (n - 0x30)
  else if 0x41 ≤ n ∧ n ≤ 0x46 then some (n - 0x41 + 10)
  else if 0x61 ≤ n ∧ n ≤ 0x66 then some (n - 0x61 + 10)
  else none

/-- The value of digits in a base, the most significant first, after `acc`. -/
def digitsValue (base : Nat) (acc : Nat) : List Char → Option Nat
  | [] => some acc
  | c :: cs =>
    match digitValue c with
    | some d => if d < base then digitsValue base (acc * base + d) cs else none
    | none => none

/-- A number: `0x` and hexadecimal digits, or decimal digits (R78). -/
def parseNumber : List Char → Option Nat
  | [] => none
  | '0' :: 'x' :: d :: ds => digitsValue 16 0 (d :: ds)
  | d :: ds => digitsValue 10 0 (d :: ds)

/-- One operand. -/
def tokenOperand : Token → Option Operand
  | .word cs => (parseNumber cs).map .num
  | .chr c => some (.chr c)
  | .comma => none
  | .str _ => none

/-- Operands separated by commas; none at all is allowed. -/
def operandList : List Token → Option (List Operand)
  | [] => some []
  | [t] => (tokenOperand t).map fun o => [o]
  | t :: .comma :: u :: rest =>
    match tokenOperand t, operandList (u :: rest) with
    | some o, some os => some (o :: os)
    | _, _ => none
  | _ => none

/-- The line of a mnemonic with its operands, where their number is right (R78, R79). -/
def buildLine (m : List Char) (ops : List Operand) : Option Asm :=
  if m = "TXCLR".toList then (match ops with | [] => some .txclr | _ => none)
  else if m = "TXPUT".toList then (match ops with | [a] => some (.txput a) | _ => none)
  else if m = "RENDER".toList then (match ops with | [] => some .render | _ => none)
  else if m = "MRD".toList then (match ops with | [a, b] => some (.mrd a b) | _ => none)
  else if m = "GLU".toList then (match ops with | [a, b] => some (.glu a b) | _ => none)
  else if m = "SWR".toList then (match ops with | [a, b] => some (.swr a b) | _ => none)
  else if m = "SRD".toList then (match ops with | [a] => some (.srd a) | _ => none)
  else if m = "HXREC".toList then (match ops with | [a, b] => some (.hxrec a b) | _ => none)
  else if m = "HXEOF".toList then (match ops with | [] => some .hxeof | _ => none)
  else if m = "ENCODE".toList then (match ops with | [a] => some (.encode a) | _ => none)
  else if m = "LOADBUF".toList then (match ops with | a :: bs => some (.loadbuf a bs) | _ => none)
  else if m = "FILL".toList then (match ops with | [a, b, c] => some (.fill a b c) | _ => none)
  else none

/-- The source line a text spells (R78, R79). -/
def parseLine (text : List Char) : Option Asm :=
  match lex none [] text with
  | some [.word m, .str s] => if m = "TXSTR".toList then some (.txstr s) else none
  | some (.word m :: rest) =>
    match operandList rest with
    | some ops => buildLine m ops
    | none => none
  | _ => none

/-- The words of a program text, one command or pseudo-instruction a line (R70, R78). -/
def assembleText : List (List Char) → Option (List Word)
  | [] => some []
  | line :: rest =>
    match (parseLine line).bind assemble, assembleText rest with
    | some ws, some more => some (ws ++ more)
    | _, _ => none

end Sys2Proof.Machine
end

