-- ==== Sys2Proof/Safety.lean ====
section
/-! DEFINITION. The words the statements are written in: what a command leaves alone, runs of commands, the invariant, and the rules of the font, the records and HEX files spelled out in plain numbers, apart from the machine's own definitions. -/

namespace Sys2Proof.Machine

/-! ### What is left alone -/

/-- The text buffer is as before: TLEN and every TBUF register (R23). -/
def SameText (s t : State) : Prop :=
  t.tlen = s.tlen ∧ ∀ (i : Nat) (h : i < 14), t.tbuf[i] = s.tbuf[i]

/-- Every mask pixel is as before (R24). -/
def SameMask (s t : State) : Prop :=
  ∀ r c : Nat, r < 7 → c < 128 → maskRead t.mask r c = maskRead s.mask r c

/-- Every source byte reads as before (R27). -/
def SameSrc (s t : State) : Prop := ∀ a : Nat, memRead t.src a = memRead s.src a

/-- What the host has issued and read is as before (log entry 4). -/
def SameHost (s t : State) : Prop := t.pending = s.pending ∧ t.received = s.received

/-- STATUS bit `bit` is set, every other STATUS bit and every other part of the block is as before:
what `raise Error(kind)` does (R221). -/
def ErrorOnly (bit : Nat) (s t : State) : Prop :=
  (∀ i, i < 32 → t.status.getLsbD i = (s.status.getLsbD i || i == bit)) ∧
  t.res = s.res ∧ SameText s t ∧ SameMask s t ∧ SameSrc s t ∧ t.hout = s.hout

/-- The host's next action is to write the word `w` to CMD, and `left` is then still pending. -/
def NextWord (s : State) (w : Word) (left : List HostAction) : Prop :=
  selectAction s.hout s.pending = some (.writeCmd w, left)

/-- Writing the word raises Error(ILL) and has no other effect, in every state (R222). -/
def RaisesIll (w : Word) : Prop :=
  ∀ (s : State) (left : List HostAction), NextWord s w left →
    ∃ t, step s = .next t ∧ ErrorOnly 0 s t ∧ t.pending = left ∧ t.received = s.received

/-- The step carries out this command. -/
def StepsCommand (s : State) (i : Instr) : Prop :=
  ∃ w left, NextWord s w left ∧ decode w = .ok i

/-- The step is a reset. -/
def StepsReset (s : State) : Prop :=
  ∃ left, selectAction s.hout s.pending = some (.reset, left)

/-- The step is the host's read of the port. -/
def StepsRead (s : State) (port : HostAction) : Prop :=
  ∃ left, selectAction s.hout s.pending = some (port, left)

/-- The command words among the host's actions, in its order. -/
def wordsOf (p : List HostAction) : List Word :=
  p.filterMap fun
    | .writeCmd w => some w
    | .readRes => none
    | .readStatus => none
    | .readHout => none
    | .reset => none

/-! ### Runs of commands -/

/-- The commands one after another, stopping at the first that does not go on (R70). -/
def runCommands : List Instr → State → Outcome
  | [], s => .next s
  | i :: is, s =>
    match exec i s with
    | .next t => runCommands is t
    | .fault f => .fault f
    | .refused r => .refused r

/-! ### The opcode table -/

/-- Mask and match of each row of the opcode table (R74). -/
def opcodeRows : List (Word × Word) :=
  [(0xFFFFFFFF#32, 0x01000000#32), (0xFFFFFF00#32, 0x02000000#32), (0xFFFFFFFF#32, 0x03000000#32),
   (0xFFFF0000#32, 0x04000000#32), (0xFFFF0000#32, 0x05000000#32), (0xFF000000#32, 0x10000000#32),
   (0xFF0000FF#32, 0x11000000#32), (0xFF0000E0#32, 0x12000000#32), (0xFFFFFFFF#32, 0x13000000#32),
   (0xFFFE0000#32, 0x14000000#32)]

/-! ### Operand ranges and source bytes -/

/-- The operand values for which Error(RANGE) is raised, in the rule's own words (R223). -/
def OutOfRange : Instr → Prop
  | .glu _ row => 6 < row.toNat
  | .mrd row col => 6 < row.toNat ∨ 127 < col.toNat
  | .hxrec addr n => n.toNat = 0 ∨ 16 < n.toNat ∨ 0x10000 < addr.toNat + n.toNat
  | .encode len => 0x10000 < len.toNat
  | .txclr => False
  | .txput _ => False
  | .render => False
  | .swr _ _ => False
  | .srd _ => False
  | .hxeof => False

/-- The source addresses a command reads when its operands are in range: first address and number
(R162, R185, R187). -/
def bytesRead : Instr → Nat × Nat
  | .srd addr => (addr.toNat, 1)
  | .hxrec addr n => (addr.toNat, n.toNat)
  | .encode len => (0, len.toNat)
  | .txclr => (0, 0)
  | .txput _ => (0, 0)
  | .render => (0, 0)
  | .mrd _ _ => (0, 0)
  | .glu _ _ => (0, 0)
  | .swr _ _ => (0, 0)
  | .hxeof => (0, 0)

/-- Every byte of `[a, a + n)` has been written since reset (R252). -/
def Written (m : Memory) (a n : Nat) : Prop := ∀ j, j < n → memRead m (a + j) ≠ none

/-- The first byte of `[a, a + n)` that has not been written stands at `x` (R53). -/
def FirstUnwritten (m : Memory) (a n x : Nat) : Prop :=
  a ≤ x ∧ x < a + n ∧ memRead m x = none ∧ ∀ y, a ≤ y → y < x → memRead m y ≠ none

/-- The bytes of `[a, a + n)`, where all of them have been written. -/
def srcBytes (m : Memory) (a n : Nat) : List Byte :=
  (List.range n).map fun j => (memRead m (a + j)).getD 0

/-! ### The font's rules in plain numbers -/

/-- Case folding of a code (R100). -/
def foldCode (c : Nat) : Nat := if 97 ≤ c ∧ c ≤ 122 then c - 32 else c

/-- The 39 supported codes (R4, R101): space, '-', the digits, ':', the capital letters. -/
def supportedCodes : List Nat :=
  [32, 45, 48, 49, 50, 51, 52, 53, 54, 55, 56, 57, 58] ++
  [65, 66, 67, 68, 69, 70, 71, 72, 73, 74, 75, 76, 77] ++
  [78, 79, 80, 81, 82, 83, 84, 85, 86, 87, 88, 89, 90]

/-- Defined: one of the supported codes, after folding (R101). -/
def codeDefined (b : Byte) : Bool := supportedCodes.contains (foldCode b.toNat)

/-- The space (R102). -/
def codeSpace (b : Byte) : Bool := foldCode b.toNat == 32

/-- Narrow: '1' or 'I', after folding (R104). -/
def codeNarrow (b : Byte) : Bool := foldCode b.toNat == 49 || foldCode b.toNat == 73

/-- Drawn: defined and not the space (R123). -/
def codeDrawn (b : Byte) : Bool := codeDefined b && !codeSpace b

/-- The glyph bit a code shows at a row and column: the font's at the folded code, 0 for the space
(R102, R103). -/
def fontBit (rom : GlyphRom) (b : Byte) (r c : Nat) : Bool :=
  !codeSpace b && glyphBit (rom (BitVec.ofNat 8 (foldCode b.toNat))) r c

/-- How many columns a drawn code covers (R104). -/
def codeWidth (b : Byte) : Nat := if codeNarrow b then 4 else 5

/-- The start offset from the counts D and K, by the source's formula (R124, R125). -/
def startFrom (D K : Nat) : Int := 16 + (96 - (7 * (D : Int) - 2 - K)) / 2 + 1

/-- The start offset of a text. -/
def textStart (text : List Byte) : Int :=
  startFrom (text.countP codeDrawn) (text.countP codeNarrow)

/-- The cursor behind some characters of a walk that reaches the first of them at `cur`, one after the
other by the walk's own rule (R126 to R129). -/
def cursorAfter (ts : List Byte) (cur : Int) : Int := ts.foldl (fun c t => advanceCursor t c) cur

/-- The mask column of glyph column 0 of the character at index `i`: the narrow shift counts the
character itself (R136). -/
def glyphColumn (text : List Byte) (i : Nat) : Int :=
  textStart text + 7 * ((text.take i).countP codeDefined : Nat) -
    ((text.take (i + 1)).countP codeNarrow : Nat)

/-- Some drawn character's glyph bit lands on row `r`, column `c` (R134, R136). -/
def GlyphLands (rom : GlyphRom) (text : List Byte) (r c : Nat) : Prop :=
  ∃ (i : Nat) (b : Byte) (k : Nat), text[i]? = some b ∧ codeDrawn b = true ∧ k < codeWidth b ∧
    glyphColumn text i + k = c ∧ fontBit rom b r k = true

/-! ### The records' rules in plain numbers -/

/-- The characters '0' to '9' and 'A' to 'F' (R181). -/
def hexDigits : List Byte :=
  [0x30, 0x31, 0x32, 0x33, 0x34, 0x35, 0x36, 0x37, 0x38, 0x39, 0x41, 0x42, 0x43, 0x44, 0x45, 0x46]

/-- The two-digit spelling of a number below 256, high digit first (R181). -/
def spell (v : Nat) : List Byte := [hexDigits.getD (v / 16) 0, hexDigits.getD (v % 16) 0]

/-- The text of a data record at address `a` (R180 to R183). -/
def recordText (a : Nat) (data : List Byte) : List Byte :=
  let sum := data.length + a / 256 + a % 256 + 0 + (data.map BitVec.toNat).sum
  [0x3A] ++ spell data.length ++ spell (a / 256) ++ spell (a % 256) ++ spell 0 ++
    data.flatMap (fun d => spell d.toNat) ++ spell ((256 - sum % 256) % 256) ++ [0x0A]

/-- `:00000001FF` LF (R184). -/
def eofText : List Byte :=
  [0x3A] ++ spell 0 ++ spell 0 ++ spell 0 ++ spell 1 ++ spell 0xFF ++ [0x0A]

/-- The text of a whole buffer: 16 bytes a record from address 0, then the end-of-file record (R187). -/
def fileText (data : List Byte) : List Byte :=
  ((List.range ((data.length + 15) / 16)).flatMap fun k =>
    recordText (16 * k) ((data.drop (16 * k)).take 16)) ++ eofText

/-- The commands ENCODE amounts to (R188). -/
def recordCommands (len : Nat) : List Instr :=
  ((List.range ((len + 15) / 16)).map fun k =>
    Instr.hxrec (BitVec.ofNat 16 (16 * k)) (BitVec.ofNat 5 (min 16 (len - 16 * k)))) ++ [.hxeof]

/-! ### A reader of HEX files -/

/-- The value of an uppercase hexadecimal digit. -/
def digitOf (c : Byte) : Option Nat := hexDigits.findIdx? (· == c)

/-- The bytes that pairs of digits spell. -/
def pairsOf : List Byte → Option (List Nat)
  | [] => some []
  | [_] => none
  | h :: l :: rest =>
    match digitOf h, digitOf l, pairsOf rest with
    | some x, some y, some more => some ((16 * x + y) :: more)
    | _, _, _ => none

/-- One line without its LF: a colon, then pairs whose sum is 0 mod 256; the address, the type and the
data, whose number is the count (R189). -/
def recordOf : List Byte → Option (Nat × Nat × List Byte)
  | [] => none
  | c :: cs =>
    if c = 0x3A#8 then
      match pairsOf cs with
      | some (n :: hi :: lo :: ty :: rest) =>
        if rest.length = n + 1 ∧ (n + hi + lo + ty + rest.sum) % 256 = 0 then
          some (256 * hi + lo, ty, (rest.take n).map (BitVec.ofNat 8))
        else none
      | _ => none
    else none

/-- The lines of a text that ends in LF. `line` is the part of the current one read so far, reversed. -/
def linesOf (line : List Byte) : List Byte → Option (List (List Byte))
  | [] => if line = [] then some [] else none
  | c :: cs =>
    if c = 0x0A#8 then (linesOf [] cs).map (line.reverse :: ·) else linesOf (c :: line) cs

/-- The data of consecutive records from address `a` on, up to one end-of-file record that ends the file. -/
def fileData (a : Nat) : List (List Byte) → Option (List Byte)
  | [] => none
  | line :: rest =>
    match recordOf line with
    | some (addr, 0, data) =>
      if addr = a then (fileData (a + data.length) rest).map (data ++ ·) else none
    | some (0, 1, []) => if rest = [] then some [] else none
    | _ => none

/-- The bytes a HEX file spells from address 0, or none where it is not one. -/
def readHexFile (text : List Byte) : Option (List Byte) := (linesOf [] text).bind (fileData 0)

/-! ### What the host has read -/

/-- The character a port value holds, where it came from HOUT. -/
def PortValue.char? : PortValue → Option Byte
  | .hout c => some c
  | .res _ => none
  | .status _ => none

/-- The characters read from HOUT so far, and those still in it: the stream the host sees (R258). -/
def State.stream (s : State) : List Byte := s.received.filterMap PortValue.char? ++ s.hout

/-! ### The invariant -/

/-- A character a record may hold: ':', an uppercase hexadecimal digit or LF (R180 to R184). -/
def recordChar (c : Byte) : Bool := c == 0x3A#8 || c == 0x0A#8 || hexDigits.contains c

/-- What holds in every state a run from reset reaches. -/
structure Inv (s : State) : Prop where
  /-- TLEN never exceeds 14 (R5, R23). -/
  tlen_le : s.tlen.toNat ≤ 14
  /-- STATUS bits 31:3 are 0 (R22). -/
  status_reserved : ∀ i, 3 ≤ i → s.status.getLsbD i = false
  /-- TRUNC is set only while the buffer holds 14 codes (R22, R121, R122). -/
  trunc_full : s.trunc = true → s.tlen.toNat = 14
  /-- The Source Memory keeps its canonical form. -/
  mem_wf : Memory.wf s.src
  /-- The 16 columns of the left keep-out are never drawn (R6, R131). -/
  keep_out : ∀ r c, c < 16 → maskRead s.mask r c = false
  /-- HOUT holds characters of records alone (R180 to R184). -/
  hout_chars : ∀ c ∈ s.hout, recordChar c = true

end Sys2Proof.Machine
end

