-- ==== Sys2Proof/Certificates/Slice0/Obligations.lean ====
section
/-! DEFINITION. The statements for the provers, in the order of OBLIGATIONS.json. -/

open Sys2Proof Sys2Proof.Machine

/-! ### Encoding -/

/-- No bit of an operand is dropped or moved: decoding the word of a command gives it back, with every
operand at every value its field admits (R72, R73, R78). -/
def Obligations.DecodeOfEncodeIsTheCommand : Prop :=
  ∀ i : Instr, decode (encode i) = .ok i

/-- A legal word is the word of the command it decodes to: each command has one word (R71, R72, R75). -/
def Obligations.EncodeOfDecodeIsTheWord : Prop :=
  ∀ (w : Word) (i : Instr), decode w = .ok i → encode i = w

/-- A word is a command exactly where it matches a row of the opcode table, and every other word raises
Error(ILL) with no other effect (R75). The range checks come later: such a step sets no other bit. -/
def Obligations.WordsOutsideTheTableAreIllegal : Prop :=
  (∀ w : Word, (∃ i, decode w = .ok i) ↔ ∃ row ∈ opcodeRows, w &&& row.1 = row.2) ∧
  (∀ w : Word, (∀ row ∈ opcodeRows, w &&& row.1 ≠ row.2) → RaisesIll w) ∧
  (∀ w : Word, w.extractLsb' 24 8 = 0x00#8 ∨
      (0x06 ≤ (w.extractLsb' 24 8).toNat ∧ (w.extractLsb' 24 8).toNat ≤ 0x0F) ∨
      0x15 ≤ (w.extractLsb' 24 8).toNat → RaisesIll w)

/-- The worked encodings of 30_encoding.md section 5 decode to the commands they stand for. -/
def Obligations.WorkedEncodingsDecode : Prop :=
  decode 0x02000041#32 = .ok (.txput 0x41#8) ∧ decode 0x02000069#32 = .ok (.txput 0x69#8) ∧
  decode 0x0400037F#32 = .ok (.mrd 3#8 127#8) ∧ decode 0x05000641#32 = .ok (.glu 0x41#8 6#8) ∧
  decode 0x101234AB#32 = .ok (.swr 0x1234#16 0xAB#8) ∧ decode 0x111FFF00#32 = .ok (.srd 0x1FFF#16) ∧
  decode 0x12001010#32 = .ok (.hxrec 0x0010#16 16#5) ∧ decode 0x14002000#32 = .ok (.encode 0x2000#17) ∧
  decode 0x14010000#32 = .ok (.encode 0x10000#17)

/-- When the host's next action is to write a legal word, the step is the meaning of its command, with
that action no longer pending; and `withFetchWord` makes its word the next action (R20, R70). -/
def Obligations.StepRunsTheDecodedCommand : Prop :=
  (∀ (s : State) (w : Word) (left : List HostAction) (i : Instr),
    NextWord s w left → decode w = .ok i → step s = exec i { s with pending := left }) ∧
  ∀ (s : State) (nbits w : Nat), NextWord (s.withFetchWord nbits w) (tableWord nbits w) s.pending

/-! ### The text buffer -/

/-- TXCLR, the whole rule R121. -/
def Obligations.TxclrEmptiesTheTextBuffer : Prop :=
  (∀ w : Word, decode w = .ok .txclr ↔ w = 0x01000000#32) ∧
  (∀ w : Word, w.extractLsb' 24 8 = 0x01#8 → w.extractLsb' 0 24 ≠ 0#24 → RaisesIll w) ∧
  ∀ s : State, ∃ t, exec .txclr s = .next t ∧ t.tlen = 0#4 ∧
    (∀ i, i < 32 → t.status.getLsbD i = (s.status.getLsbD i && i != 2)) ∧
    (∀ (i : Nat) (h : i < 14), t.tbuf[i] = s.tbuf[i]) ∧
    t.res = s.res ∧ SameMask s t ∧ SameSrc s t ∧ t.hout = s.hout ∧ SameHost s t

/-- TXPUT, the whole rule R122: append while fewer than 14 codes are held, else drop and set TRUNC. -/
def Obligations.TxputAppendsOrDrops : Prop :=
  (∀ (w : Word) (ch : Byte), decode w = .ok (.txput ch) ↔
    w.extractLsb' 8 24 = 0x020000#24 ∧ w.extractLsb' 0 8 = ch) ∧
  (∀ w : Word, w.extractLsb' 24 8 = 0x02#8 → w.extractLsb' 8 16 ≠ 0#16 → RaisesIll w) ∧
  ∀ (ch : Byte) (s : State), ∃ t, exec (.txput ch) s = .next t ∧
    (s.tlen.toNat < 14 → t.tlen.toNat = s.tlen.toNat + 1 ∧
      (∀ (i : Nat) (h : i < 14), t.tbuf[i] = if i = s.tlen.toNat then ch else s.tbuf[i]) ∧
      t.status = s.status) ∧
    (14 ≤ s.tlen.toNat → SameText s t ∧
      ∀ i, i < 32 → t.status.getLsbD i = (s.status.getLsbD i || i == 2)) ∧
    t.res = s.res ∧ SameMask s t ∧ SameSrc s t ∧ t.hout = s.hout ∧ SameHost s t

/-- However long the text, its first 14 codes are kept, TRUNC records whether any was dropped, and no
error bit changes (R226). -/
def Obligations.LongTextsKeepTheirFirstFourteenCodes : Prop :=
  ∀ (codes : List Byte) (s : State), ∃ t,
    runCommands (.txclr :: codes.map .txput) s = .next t ∧
    t.text = codes.take 14 ∧ t.trunc = decide (14 < codes.length) ∧
    t.errIll = s.errIll ∧ t.errRange = s.errRange ∧
    t.res = s.res ∧ SameMask s t ∧ SameSrc s t ∧ t.hout = s.hout

/-! ### The font -/

/-- GLU, the whole rule R106, with the classes of codes in plain numbers (R100 to R104). -/
def Obligations.GluReportsOneGlyphRow : Prop :=
  (∀ (w : Word) (ch row : Byte), decode w = .ok (.glu ch row) ↔
    w.extractLsb' 16 16 = 0x0500#16 ∧ w.extractLsb' 8 8 = row ∧ w.extractLsb' 0 8 = ch) ∧
  (∀ w : Word, w.extractLsb' 24 8 = 0x05#8 → w.extractLsb' 16 8 ≠ 0#8 → RaisesIll w) ∧
  ∀ (ch row : Byte) (s : State),
    (6 < row.toNat → ∃ t, exec (.glu ch row) s = .next t ∧ ErrorOnly 1 s t ∧ SameHost s t) ∧
    (row.toNat ≤ 6 → ∃ t, exec (.glu ch row) s = .next t ∧
      (∀ i, i < 32 → t.res.getLsbD i =
        (codeDefined ch &&
          if i < 5 then fontBit Config.glyphRom ch row.toNat i
          else if i = 8 then true
          else if i = 9 then codeNarrow ch
          else if i = 10 then codeSpace ch
          else false)) ∧
      t.status = s.status ∧ SameText s t ∧ SameMask s t ∧ SameSrc s t ∧ t.hout = s.hout ∧ SameHost s t)

/-- Case folding happens at lookup, in RENDER and in GLU alike: folding the codes first changes neither
the mask, nor the layout report, nor a glyph row (R100, D38). -/
def Obligations.FoldingTheTextFirstChangesNothing : Prop :=
  ∀ (rom : GlyphRom) (text : List Byte) (ch : Byte) (row : Nat),
    renderMask rom (text.map norm) = renderMask rom text ∧
    layoutReport (text.map norm) = layoutReport text ∧
    gluReport rom (norm ch) row = gluReport rom ch row

/-- Only the 38 named glyphs are ever looked up, and a narrow glyph's column 4 is never drawn: fonts that
agree on the rest give the same mask, and the same glyph rows where they agree on column 4 too
(R10, R104). -/
def Obligations.OnlyTheNamedGlyphsAreRead : Prop :=
  ∀ rom₁ rom₂ : GlyphRom,
    ((∀ (n : Byte) (r c : Nat), supportedCodes.contains n.toNat = true → n ≠ 0x20#8 → r < 7 →
        c < codeWidth n → glyphBit (rom₁ n) r c = glyphBit (rom₂ n) r c) →
      ∀ text : List Byte, renderMask rom₁ text = renderMask rom₂ text) ∧
    ((∀ (n : Byte) (r c : Nat), supportedCodes.contains n.toNat = true → n ≠ 0x20#8 → r < 7 →
        c < 5 → glyphBit (rom₁ n) r c = glyphBit (rom₂ n) r c) →
      ∀ (ch : Byte) (row : Nat), gluReport rom₁ ch row = gluReport rom₂ ch row)

/-- An undefined code is skipped with no cursor advance: taking it out of the text changes neither the
mask nor the layout report (R127). -/
def Obligations.UndefinedCodesAreSkipped : Prop :=
  ∀ (rom : GlyphRom) (before after : List Byte) (u : Byte), codeDefined u = false →
    renderMask rom (before ++ u :: after) = renderMask rom (before ++ after) ∧
    layoutReport (before ++ u :: after) = layoutReport (before ++ after)

/-! ### RENDER and MRD -/

/-- RENDER completes in every state, reports K, D, W and S in RES, and changes nothing but RES and the
mask (R123, R124, R125, R133). S is the low byte, W the next as a signed byte, D and K the upper two. -/
def Obligations.RenderReportsItsLayout : Prop :=
  (∀ w : Word, decode w = .ok .render ↔ w = 0x03000000#32) ∧
  (∀ w : Word, w.extractLsb' 24 8 = 0x03#8 → w.extractLsb' 0 24 ≠ 0#24 → RaisesIll w) ∧
  ∀ s : State, ∃ t, exec .render s = .next t ∧
    ((t.res.extractLsb' 0 8).toNat : Int) = textStart s.text ∧
    (t.res.extractLsb' 8 8).toInt =
      7 * (s.text.countP codeDrawn : Nat) - 2 - (s.text.countP codeNarrow : Nat) ∧
    (t.res.extractLsb' 16 8).toNat = s.text.countP codeDrawn ∧
    (t.res.extractLsb' 24 8).toNat = s.text.countP codeNarrow ∧
    t.status = s.status ∧ SameText s t ∧ SameSrc s t ∧ t.hout = s.hout ∧ SameHost s t

/-- A mask pixel is 1 after RENDER exactly where some drawn character's glyph bit lands on it, at the
column the closed form gives, for every font and every text; nothing wraps and nothing else is set
(R130, R132, R134; the closed form is R136, which the spec marks as its own inference). -/
def Obligations.RenderDrawsTheUnionOfItsGlyphs : Prop :=
  (∀ (rom : GlyphRom) (text : List Byte) (r c : Nat), text.length ≤ 14 → r < 7 → c < 128 →
    (maskRead (renderMask rom text) r c = true ↔ GlyphLands rom text r c)) ∧
  ∀ s : State, ∃ t, exec .render s = .next t ∧ ∀ r c : Nat, r < 7 → c < 128 →
    (maskRead t.mask r c = true ↔ GlyphLands Config.glyphRom s.text r c)

/-- The ranges that R131 marks as its own inference ("derived"), over the values RENDER computes with: the
counts, the width, the dividend, the start offset, each cursor value of the walk and each column it draws
at, for every text of at most 14 codes; that the least and the greatest column are reached; that
`cursorAfter` and `placeCursor` are where `walkLine` walks and draws, and `drawGlyphRow` touches no other
column; and the ranges of what RENDER reports, in every state. -/
def Obligations.RenderStaysInItsRanges : Prop :=
  (∀ text : List Byte, text.length ≤ 14 →
    narrowCount text ≤ drawnCount text ∧ drawnCount text ≤ 14 ∧
    -2 ≤ textWidth text ∧ textWidth text ≤ 96 ∧
    (96 - textWidth text).tdiv 2 = (96 - textWidth text) / 2 ∧
    17 ≤ startOffset text ∧ startOffset text ≤ 66 ∧
    (∀ before after : List Byte, text = before ++ after →
      -256 ≤ cursorAfter before (startOffset text) ∧ cursorAfter before (startOffset text) ≤ 255) ∧
    ∀ (before after : List Byte) (t : Byte) (at_ : Int), text = before ++ t :: after → isDrawn t = true →
      at_ = placeCursor t (cursorAfter before (startOffset text)) →
      -256 ≤ at_ ∧ at_ ≤ 255 ∧ ∀ col : Nat, col < drawnWidth t → 16 ≤ at_ + col ∧ at_ + col ≤ 157) ∧
  placeCursor 0x41 (cursorAfter (List.replicate 13 0x20#8)
    (startOffset (List.replicate 13 0x20#8 ++ [0x41#8]))) + 4 = 157 ∧
  placeCursor 0x31 (startOffset (0x31#8 :: List.replicate 13 0x41#8)) = 16 ∧
  (∀ (rom : GlyphRom) (line : Nat) (before after : List Byte) (t : Byte) (cur : Int) (m : Mask),
    walkLine rom line (before ++ t :: after) cur m =
      walkLine rom line after (cursorAfter (before ++ [t]) cur)
        (if isDrawn t then
          drawGlyphRow (glyphOf rom (norm t)) line (placeCursor t (cursorAfter before cur)) (drawnWidth t)
            (walkLine rom line before cur m)
        else walkLine rom line before cur m)) ∧
  (∀ (g : Glyph) (line : Nat) (cur : Int) (wd : Nat) (m : Mask) (r c : Nat),
    maskRead (drawGlyphRow g line cur wd m) r c ≠ maskRead m r c →
      r = line ∧ ∃ col : Nat, col < wd ∧ cur + col = c) ∧
  ∀ s : State, ∃ t, exec .render s = .next t ∧
    17 ≤ (t.res.extractLsb' 0 8).toNat ∧ (t.res.extractLsb' 0 8).toNat ≤ 66 ∧
    -2 ≤ (t.res.extractLsb' 8 8).toInt ∧ (t.res.extractLsb' 8 8).toInt ≤ 96 ∧
    (t.res.extractLsb' 24 8).toNat ≤ (t.res.extractLsb' 16 8).toNat ∧ (t.res.extractLsb' 16 8).toNat ≤ 14

/-- RENDER reads nothing but the text: states with the same TLEN and the same codes below it get the
same mask and the same RES; and a second RENDER with no TXCLR or TXPUT since the first gives the mask
and the RES of the first (R135). -/
def Obligations.RenderDependsOnTheTextAlone : Prop :=
  (∀ s₁ s₂ : State, s₁.tlen = s₂.tlen →
    (∀ (i : Nat) (h : i < 14), i < s₁.tlen.toNat → s₁.tbuf[i] = s₂.tbuf[i]) →
    ∃ t₁ t₂, exec .render s₁ = .next t₁ ∧ exec .render s₂ = .next t₂ ∧
      t₁.mask = t₂.mask ∧ t₁.res = t₂.res) ∧
  ∀ (between : List Instr) (s t u v : State),
    (∀ i ∈ between, i ≠ .txclr ∧ ∀ ch, i ≠ .txput ch) →
    exec .render s = .next t → runCommands between t = .next u → exec .render u = .next v →
    v.mask = t.mask ∧ v.res = t.res

/-- MRD, the whole rule R137. -/
def Obligations.MrdReadsOnePixel : Prop :=
  (∀ (w : Word) (row col : Byte), decode w = .ok (.mrd row col) ↔
    w.extractLsb' 16 16 = 0x0400#16 ∧ w.extractLsb' 8 8 = row ∧ w.extractLsb' 0 8 = col) ∧
  (∀ w : Word, w.extractLsb' 24 8 = 0x04#8 → w.extractLsb' 16 8 ≠ 0#8 → RaisesIll w) ∧
  (∀ r c : Nat, r < 7 → c < 128 → maskRead State.reset.mask r c = false) ∧
  ∀ (row col : Byte) (s : State),
    (6 < row.toNat ∨ 127 < col.toNat →
      ∃ t, exec (.mrd row col) s = .next t ∧ ErrorOnly 1 s t ∧ SameHost s t) ∧
    (row.toNat ≤ 6 → col.toNat ≤ 127 → ∃ t, exec (.mrd row col) s = .next t ∧
      t.res.toNat = (maskRead s.mask row.toNat col.toNat).toNat ∧
      t.status = s.status ∧ SameText s t ∧ SameMask s t ∧ SameSrc s t ∧ t.hout = s.hout ∧ SameHost s t)

/-! ### The Source Memory -/

/-- SWR, the whole rule R161: one byte changes, every other byte and all other state is kept. -/
def Obligations.SwrWritesOneByte : Prop :=
  (∀ (w : Word) (addr : Addr) (b : Byte), decode w = .ok (.swr addr b) ↔
    w.extractLsb' 24 8 = 0x10#8 ∧ w.extractLsb' 8 16 = addr ∧ w.extractLsb' 0 8 = b) ∧
  ∀ (addr : Addr) (b : Byte) (s : State), ∃ t, exec (.swr addr b) s = .next t ∧
    (∀ a : Nat, memRead t.src a = if a = addr.toNat then some b else memRead s.src a) ∧
    t.res = s.res ∧ t.status = s.status ∧ SameText s t ∧ SameMask s t ∧ t.hout = s.hout ∧ SameHost s t

/-- SRD, the whole rule R162: RES gets the byte zero-extended, and an unwritten byte is the model fault. -/
def Obligations.SrdReadsOneByte : Prop :=
  (∀ (w : Word) (addr : Addr), decode w = .ok (.srd addr) ↔
    w.extractLsb' 24 8 = 0x11#8 ∧ w.extractLsb' 0 8 = 0#8 ∧ w.extractLsb' 8 16 = addr) ∧
  (∀ w : Word, w.extractLsb' 24 8 = 0x11#8 → w.extractLsb' 0 8 ≠ 0#8 → RaisesIll w) ∧
  ∀ (addr : Addr) (s : State),
    (∀ b : Byte, memRead s.src addr.toNat = some b → ∃ t, exec (.srd addr) s = .next t ∧
      t.res.toNat = b.toNat ∧
      t.status = s.status ∧ SameText s t ∧ SameMask s t ∧ SameSrc s t ∧ t.hout = s.hout ∧ SameHost s t) ∧
    (memRead s.src addr.toNat = none → exec (.srd addr) s = .fault (.srcUnwritten addr.toNat))

/-- Sequential consistency of the Source Memory: after an SWR and any commands that do not write that
address, an SRD of it returns the SWR's byte (R58). -/
def Obligations.SrdReturnsTheMostRecentWrite : Prop :=
  ∀ (addr : Addr) (b : Byte) (between : List Instr) (s t u : State),
    exec (.swr addr b) s = .next t → runCommands between t = .next u →
    (∀ i ∈ between, ∀ v, i ≠ .swr addr v) →
    ∃ x, exec (.srd addr) u = .next x ∧ x.res.toNat = b.toNat

/-! ### The Intel-HEX encoder -/

/-- HXREC, the whole rule R185, with the record spelled out from R180 to R183. -/
def Obligations.HxrecAppendsOneRecord : Prop :=
  (∀ (w : Word) (addr : Addr) (n : BitVec 5), decode w = .ok (.hxrec addr n) ↔
    w.extractLsb' 24 8 = 0x12#8 ∧ w.extractLsb' 5 3 = 0#3 ∧ w.extractLsb' 8 16 = addr ∧
      w.extractLsb' 0 5 = n) ∧
  (∀ w : Word, w.extractLsb' 24 8 = 0x12#8 → w.extractLsb' 5 3 ≠ 0#3 → RaisesIll w) ∧
  ∀ (addr : Addr) (n : BitVec 5) (s : State),
    (n.toNat = 0 ∨ 16 < n.toNat ∨ 0x10000 < addr.toNat + n.toNat →
      ∃ t, exec (.hxrec addr n) s = .next t ∧ ErrorOnly 1 s t ∧ SameHost s t) ∧
    (1 ≤ n.toNat → n.toNat ≤ 16 → addr.toNat + n.toNat ≤ 0x10000 →
      (Written s.src addr.toNat n.toNat → ∃ t, exec (.hxrec addr n) s = .next t ∧
        t.hout = s.hout ++ recordText addr.toNat (srcBytes s.src addr.toNat n.toNat) ∧
        t.res = s.res ∧ t.status = s.status ∧ SameText s t ∧ SameMask s t ∧ SameSrc s t ∧ SameHost s t) ∧
      (¬Written s.src addr.toNat n.toNat → ∃ x, memRead s.src x = none ∧ addr.toNat ≤ x ∧
        x < addr.toNat + n.toNat ∧ exec (.hxrec addr n) s = .fault (.srcUnwritten x)))

/-- HXEOF: the 12 codes of `:00000001FF` LF, in every state (R184, R186). That the checksum of R182 agrees
with its 0xFF, the last clause, is a sentence R184 marks as derived from R182. -/
def Obligations.HxeofAppendsTheEndOfFileRecord : Prop :=
  (∀ w : Word, decode w = .ok .hxeof ↔ w = 0x13000000#32) ∧
  (∀ w : Word, w.extractLsb' 24 8 = 0x13#8 → w.extractLsb' 0 24 ≠ 0#24 → RaisesIll w) ∧
  (∀ s : State, ∃ t, exec .hxeof s = .next t ∧
    t.hout = s.hout ++ [0x3A, 0x30, 0x30, 0x30, 0x30, 0x30, 0x30, 0x30, 0x31, 0x46, 0x46, 0x0A] ∧
    t.res = s.res ∧ t.status = s.status ∧ SameText s t ∧ SameMask s t ∧ SameSrc s t ∧ SameHost s t) ∧
  checksum 0#8 0#16 1#8 [] = 0xFF#8

/-- ENCODE, the whole rule R187: 16 bytes a record from address 0, the rest in the last, then the
end-of-file record; nothing appended where a byte is unwritten or LEN is out of range. -/
def Obligations.EncodeAppendsTheWholeFile : Prop :=
  (∀ (w : Word) (len : BitVec 17), decode w = .ok (.encode len) ↔
    w.extractLsb' 24 8 = 0x14#8 ∧ w.extractLsb' 17 7 = 0#7 ∧ w.extractLsb' 0 17 = len) ∧
  (∀ w : Word, w.extractLsb' 24 8 = 0x14#8 → w.extractLsb' 17 7 ≠ 0#7 → RaisesIll w) ∧
  ∀ (len : BitVec 17) (s : State),
    (0x10000 < len.toNat → ∃ t, exec (.encode len) s = .next t ∧ ErrorOnly 1 s t ∧ SameHost s t) ∧
    (len.toNat ≤ 0x10000 →
      (Written s.src 0 len.toNat → ∃ t, exec (.encode len) s = .next t ∧
        t.hout = s.hout ++ fileText (srcBytes s.src 0 len.toNat) ∧
        t.res = s.res ∧ t.status = s.status ∧ SameText s t ∧ SameMask s t ∧ SameSrc s t ∧ SameHost s t) ∧
      (¬Written s.src 0 len.toNat → ∃ x, memRead s.src x = none ∧ x < len.toNat ∧
        exec (.encode len) s = .fault (.srcUnwritten x)))

/-- ENCODE ends as its HXRECs and HXEOF do, one after the other, with the same state or the same fault
(R188, which the spec marks as derived; that the faults agree rests on log entry 13). -/
def Obligations.EncodeIsItsRecordCommands : Prop :=
  ∀ (len : BitVec 17) (s : State), len.toNat ≤ 0x10000 →
    exec (.encode len) s = runCommands (recordCommands len.toNat) s

/-- How many characters a record and an ENCODE append (R180, and R188 and R261, which the spec marks as
derived). -/
def Obligations.RecordAndFileLengths : Prop :=
  (∀ (a : Addr) (data : List Byte), (dataRecord a data).length = 12 + 2 * data.length) ∧
  ∀ (len : BitVec 17) (s : State), len.toNat ≤ 0x10000 → Written s.src 0 len.toNat →
    ∃ t out, exec (.encode len) s = .next t ∧ t.hout = s.hout ++ out ∧
      out.length = 12 * ((len.toNat + 15) / 16 + 1) + 2 * len.toNat

/-- The encoding loses nothing: a reader of HEX files, which checks every record's checksum, address and
count and the end-of-file record, gets back exactly the bytes encoded (R189, which the spec marks as
derived). -/
def Obligations.EncodeIsLossless : Prop :=
  ∀ (len : BitVec 17) (s : State), len.toNat ≤ 0x10000 → Written s.src 0 len.toNat →
    ∃ t out, exec (.encode len) s = .next t ∧ t.hout = s.hout ++ out ∧
      readHexFile out = some (srcBytes s.src 0 len.toNat)

/-- The host loads any buffer with one SWR a byte, issues ENCODE, and HOUT gains the buffer's HEX file,
whatever the state before (R160, R252). -/
def Obligations.LoadingThenEncodingGivesTheBuffersFile : Prop :=
  ∀ (bytes : List Byte) (s : State), bytes.length ≤ 0x10000 → ∃ t,
    runCommands (((List.range bytes.length).map fun j =>
        Instr.swr (BitVec.ofNat 16 j) (bytes.getD j 0)) ++ [.encode (BitVec.ofNat 17 bytes.length)]) s
      = .next t ∧
    t.hout = s.hout ++ fileText bytes ∧
    t.res = s.res ∧ t.status = s.status ∧ SameText s t ∧ SameMask s t

/-- What HXREC or ENCODE appends is a function of its operands and the source bytes it reads, and
neither changes SRC, the mask, the text, RES or STATUS but for an error's bit (R190). -/
def Obligations.EncoderReadsOnlyItsSourceBytes : Prop :=
  ∀ (i : Instr), ((∃ addr n, i = .hxrec addr n) ∨ ∃ len, i = .encode len) →
    (∀ s₁ s₂ t₁ : State,
      (∀ j, j < (bytesRead i).2 → memRead s₁.src ((bytesRead i).1 + j) = memRead s₂.src ((bytesRead i).1 + j)) →
      exec i s₁ = .next t₁ → ∃ t₂ out, exec i s₂ = .next t₂ ∧
        t₁.hout = s₁.hout ++ out ∧ t₂.hout = s₂.hout ++ out) ∧
    ∀ s t : State, exec i s = .next t →
      SameSrc s t ∧ SameMask s t ∧ SameText s t ∧ t.res = s.res ∧ (t.status = s.status ∨ ErrorOnly 1 s t)

/-! ### Errors and stops -/

/-- Error(RANGE) is raised for exactly the operand values of R223; on them the command sets ERR_RANGE
and does nothing else, and TXCLR, TXPUT, RENDER, SWR, SRD and HXEOF never raise it. -/
def Obligations.RangeErrorsAreExactlyTheListed : Prop :=
  (∀ (i : Instr) (s : State), OutOfRange i → ∃ t, exec i s = .next t ∧ ErrorOnly 1 s t ∧ SameHost s t) ∧
  ∀ (i : Instr) (s t : State), exec i s = .next t → s.errRange = false → t.errRange = true → OutOfRange i

/-- One step sets at most one error bit, and a command that raises an error reads no source byte, so it
goes on whatever has been written (R224). -/
def Obligations.AtMostOneErrorBitAStep : Prop :=
  (∀ s t : State, step s = .next t → s.errIll = false → s.errRange = false →
    t.errIll = false ∨ t.errRange = false) ∧
  (∀ (i : Instr) (s : State), OutOfRange i → ∀ f, exec i s ≠ .fault f) ∧
  ∀ (s : State) (w : Word) (left : List HostAction), NextWord s w left → (∀ i, decode w ≠ .ok i) →
    ∃ t, step s = .next t ∧ t.errRange = s.errRange

/-- The STATUS error bits stay set until reset, and TRUNC until the next TXCLR or reset (R227). -/
def Obligations.ErrorBitsAreSticky : Prop :=
  ∀ s t : State, step s = .next t → ¬StepsReset s →
    (s.errIll = true → t.errIll = true) ∧ (s.errRange = true → t.errRange = true) ∧
    (s.trunc = true → ¬StepsCommand s .txclr → t.trunc = true)

/-- Each STATUS bit is set only by its own cause: an illegal word, an operand out of range, a TXPUT on a
full buffer (R22). -/
def Obligations.StatusBitsHaveTheirOwnCauses : Prop :=
  ∀ s t : State, step s = .next t →
    (s.errIll = false → t.errIll = true → ∃ w left, NextWord s w left ∧ ∀ i, decode w ≠ .ok i) ∧
    (s.errRange = false → t.errRange = true → ∃ i, StepsCommand s i ∧ OutOfRange i) ∧
    (s.trunc = false → t.trunc = true → ∃ ch, StepsCommand s (.txput ch) ∧ 14 ≤ s.tlen.toNat)

/-- A command goes on, or it stops with SrcUnwritten at the first unwritten byte it would read, its
operands being in range; with those bytes written it always goes on (R53, R233, R252). Which of several
unwritten bytes the fault names is the model's reading (log entry 13). -/
def Obligations.CommandsStopOnlyOnUnwrittenBytes : Prop :=
  ∀ (i : Instr) (s : State),
    ((∃ t, exec i s = .next t) ∨
      ∃ x, exec i s = .fault (.srcUnwritten x) ∧ ¬OutOfRange i ∧
        FirstUnwritten s.src (bytesRead i).1 (bytesRead i).2 x) ∧
    (Written s.src (bytesRead i).1 (bytesRead i).2 → ∃ t, exec i s = .next t) ∧
    (¬Written s.src (bytesRead i).1 (bytesRead i).2 → ¬OutOfRange i → ∀ t, exec i s ≠ .next t)

/-! ### The whole machine -/

/-- The invariant holds right after reset. -/
def Obligations.InvariantHoldsAtReset : Prop := Inv State.reset

/-- Every step keeps the invariant: TLEN at most 14, STATUS reserved bits 0, TRUNC only on a full buffer,
the Source Memory canonical, the left keep-out blank, only record characters in HOUT
(R5, R22, R23, R131, R181). -/
def Obligations.EveryStepKeepsTheInvariant : Prop :=
  ∀ s t : State, Inv s → step s = .next t → Inv t

/-- Reset, in every state: the values of R250. What the host has issued and read stays, the model's own
choice (log entry 7); TBUF is unspecified and nothing is said of it here. -/
def Obligations.ResetGivesTheResetValues : Prop :=
  ∀ (s : State) (left : List HostAction), selectAction s.hout s.pending = some (.reset, left) →
    ∃ t, step s = .next t ∧ t.res = 0#32 ∧ t.status = 0#32 ∧ t.tlen = 0#4 ∧
      (∀ r c : Nat, r < 7 → c < 128 → maskRead t.mask r c = false) ∧ t.hout = [] ∧
      (∀ a : Nat, memRead t.src a = none) ∧ t.pending = left ∧ t.received = s.received

/-- The mask holds its value from one RENDER to the next: only RENDER and reset change it (R138). -/
def Obligations.OnlyRenderAndResetChangeTheMask : Prop :=
  ∀ s t : State, step s = .next t → ¬StepsReset s → ¬StepsCommand s .render → SameMask s t

/-- Of all steps but reset, only GLU, RENDER, MRD and SRD write RES (R21). -/
def Obligations.OnlyFourCommandsWriteRes : Prop :=
  ∀ s t : State, step s = .next t → ¬StepsReset s → t.res ≠ s.res →
    ∃ i, StepsCommand s i ∧ ¬OutOfRange i ∧
      ((∃ ch row, i = .glu ch row) ∨ i = .render ∨ (∃ row col, i = .mrd row col) ∨ ∃ addr, i = .srd addr)

/-- Of all steps but reset, only TXCLR and TXPUT write the text buffer (R23). -/
def Obligations.OnlyTxclrAndTxputChangeTheText : Prop :=
  ∀ s t : State, step s = .next t → ¬StepsReset s → ¬SameText s t →
    StepsCommand s .txclr ∨ ∃ ch, StepsCommand s (.txput ch) ∧ s.tlen.toNat < 14

/-- Of all steps but reset, only SWR writes the Source Memory, and only the byte it names (R27). -/
def Obligations.OnlySwrChangesASourceByte : Prop :=
  ∀ (s t : State) (a : Nat), step s = .next t → ¬StepsReset s → memRead t.src a ≠ memRead s.src a →
    ∃ (addr : Addr) (b : Byte), StepsCommand s (.swr addr b) ∧ a = addr.toNat ∧ memRead t.src a = some b

/-- Of all steps but reset, only a host read removes a character from HOUT, its first one, and only
HXREC, HXEOF and ENCODE append, at its end (R26, R251). -/
def Obligations.HoutIsAppendedAndReadFromItsFront : Prop :=
  ∀ s t : State, step s = .next t → ¬StepsReset s →
    (StepsRead s .readHout ∧ ∃ c, s.hout = c :: t.hout) ∨ t.hout = s.hout ∨
    ∃ i out, StepsCommand s i ∧ t.hout = s.hout ++ out ∧
      ((∃ addr n, i = .hxrec addr n) ∨ i = .hxeof ∨ ∃ len, i = .encode len)

/-! ### The host's ports -/

/-- The three port reads: RES and STATUS are returned and change no state; HOUT returns and removes its
first character; no read changes the mask, the text buffer or the Source Memory (R29, R30). That STATUS
bits 31:3 are returned as 0 whatever the register holds is the model's reading of R22 (log entry 10). -/
def Obligations.PortReadsReturnAndKeep : Prop :=
  ∀ (s : State) (left : List HostAction),
    (selectAction s.hout s.pending = some (.readRes, left) → ∃ t, step s = .next t ∧
      t.received = s.received ++ [.res s.res] ∧ t.hout = s.hout ∧ t.pending = left ∧
      t.res = s.res ∧ t.status = s.status ∧ SameText s t ∧ SameMask s t ∧ SameSrc s t) ∧
    (selectAction s.hout s.pending = some (.readStatus, left) → ∃ t v, step s = .next t ∧
      t.received = s.received ++ [.status v] ∧
      (∀ i, i < 32 → v.getLsbD i = (s.status.getLsbD i && decide (i < 3))) ∧
      t.hout = s.hout ∧ t.pending = left ∧
      t.res = s.res ∧ t.status = s.status ∧ SameText s t ∧ SameMask s t ∧ SameSrc s t) ∧
    (selectAction s.hout s.pending = some (.readHout, left) → ∃ t c, step s = .next t ∧
      s.hout = c :: t.hout ∧ t.received = s.received ++ [.hout c] ∧ t.pending = left ∧
      t.res = s.res ∧ t.status = s.status ∧ SameText s t ∧ SameMask s t ∧ SameSrc s t)

/-- A read of an empty HOUT has no step (R29, R233), while a command behind it can go ahead and the read
keeps waiting; a block with nothing issued waits and changes nothing. The stuck fault's place and the
idle step are the model's own choices (log entries 5 and 6). -/
def Obligations.ReadsOfAnEmptyHoutWait : Prop :=
  (∀ s : State, s.hout = [] → s.pending ≠ [] → (∀ a ∈ s.pending, a = .readHout) →
    step s = .fault .houtReadStuck) ∧
  (∀ (s : State) (reads : Nat) (w : Word) (rest : List HostAction), s.hout = [] →
    s.pending = List.replicate reads .readHout ++ .writeCmd w :: rest →
    NextWord s w (List.replicate reads .readHout ++ rest)) ∧
  ∀ s : State, s.pending = [] → step s = .next s

/-- First in, first out, over runs of any length: what the host has read from HOUT, followed by what is
still in it, only ever grows at its end, unless the block is reset (R258). -/
def Obligations.HostReadsHoutInOrder : Prop :=
  ∀ (k : Nat) (s t : State), Host.Core.run Sys2Proof.core k s = .next t →
    HostAction.reset ∉ s.pending → s.stream <+: t.stream

/-- Commands are carried out in the order the host wrote them (R20, R70): the word a step executes is the
oldest one pending, and no step skips or reorders one. That the host's actions are a list, that a waiting
read of HOUT does not hold the words up, and that a reset keeps them are the model's own choices (log
entries 4, 5 and 7). -/
def Obligations.CommandsKeepTheHostsOrder : Prop :=
  ∀ s t : State, step s = .next t →
    wordsOf t.pending = wordsOf s.pending ∨
    ∃ w, wordsOf s.pending = w :: wordsOf t.pending ∧ NextWord s w t.pending

/-! ### The assembler -/

/-- The ten forms of R78, each with its word and its refusal in plain numbers, a quoted character standing
for its code; and of every line, pseudo-instructions included: an accepted one gives one word for each
command it stands for, each word decodes to its command, and a line is refused exactly when an operand
does not fit. That a quoted character must be ASCII is the model's reading (log entry 12). -/
def Obligations.AssembledWordsDecodeToTheirCommands : Prop :=
  (∀ (a : Asm) (ws : List Word), assemble a = some ws → ws.map decode = (expand a).map .ok) ∧
  (∀ a : Asm, (assemble a = none ↔ a.wellFormed = false)) ∧
  assemble .txclr = some [0x01000000#32] ∧
  (∀ ch : Nat, assemble (.txput (.num ch)) =
    if ch < 0x100 then some [0x02000000#32 ||| BitVec.ofNat 32 ch] else none) ∧
  (∀ c : Char, assemble (.txput (.chr c)) =
    if c.toNat < 0x80 then some [0x02000000#32 ||| BitVec.ofNat 32 c.toNat] else none) ∧
  assemble .render = some [0x03000000#32] ∧
  (∀ row col : Nat, assemble (.mrd (.num row) (.num col)) =
    if row < 0x100 ∧ col < 0x100 then
      some [0x04000000#32 ||| BitVec.ofNat 32 row <<< 8 ||| BitVec.ofNat 32 col]
    else none) ∧
  (∀ ch row : Nat, assemble (.glu (.num ch) (.num row)) =
    if ch < 0x100 ∧ row < 0x100 then
      some [0x05000000#32 ||| BitVec.ofNat 32 row <<< 8 ||| BitVec.ofNat 32 ch]
    else none) ∧
  (∀ (c : Char) (row : Nat), assemble (.glu (.chr c) (.num row)) =
    if c.toNat < 0x80 ∧ row < 0x100 then
      some [0x05000000#32 ||| BitVec.ofNat 32 row <<< 8 ||| BitVec.ofNat 32 c.toNat]
    else none) ∧
  (∀ addr byte : Nat, assemble (.swr (.num addr) (.num byte)) =
    if addr < 0x10000 ∧ byte < 0x100 then
      some [0x10000000#32 ||| BitVec.ofNat 32 addr <<< 8 ||| BitVec.ofNat 32 byte]
    else none) ∧
  (∀ addr : Nat, assemble (.srd (.num addr)) =
    if addr < 0x10000 then some [0x11000000#32 ||| BitVec.ofNat 32 addr <<< 8] else none) ∧
  (∀ addr n : Nat, assemble (.hxrec (.num addr) (.num n)) =
    if addr < 0x10000 ∧ n < 0x20 then
      some [0x12000000#32 ||| BitVec.ofNat 32 addr <<< 8 ||| BitVec.ofNat 32 n]
    else none) ∧
  assemble .hxeof = some [0x13000000#32] ∧
  ∀ len : Nat, assemble (.encode (.num len)) =
    if len < 0x20000 then some [0x14000000#32 ||| BitVec.ofNat 32 len] else none

/-- The pseudo-instructions' exact expansions and refusals (R79). That a code of TXSTR is an ASCII code is
the model's reading (log entry 12). -/
def Obligations.PseudoInstructionsExpandAsListed : Prop :=
  (∀ cs : List Char, (∀ c ∈ cs, c.toNat < 128) →
    assemble (.txstr cs) = some (0x01000000#32 :: cs.map fun c => 0x02000000#32 ||| BitVec.ofNat 32 c.toNat)) ∧
  (∀ (addr : Nat) (bs : List Byte),
    assemble (.loadbuf (.num addr) (bs.map fun b => .num b.toNat)) =
      if addr < 0x10000 ∧ addr + bs.length ≤ 0x10000 then
        some ((List.range bs.length).map fun j =>
          0x10000000#32 ||| BitVec.ofNat 32 (addr + j) <<< 8 ||| BitVec.ofNat 32 (bs.getD j 0).toNat)
      else none) ∧
  ∀ (addr m : Nat) (v : Byte),
    assemble (.fill (.num addr) (.num m) (.num v.toNat)) =
      if addr < 0x10000 ∧ addr + m ≤ 0x10000 then
        some ((List.range m).map fun j =>
          0x10000000#32 ||| BitVec.ofNat 32 (addr + j) <<< 8 ||| BitVec.ofNat 32 v.toNat)
      else none
end

