-- ==== Sys2Proof/Laws/Decode.lean ====
section
/-! SUPPORT. The decoder, command by command: the words that decode to each, the illegal ones, and that decoding reads back every field of an encoded command (30_encoding.md R72 to R75). -/

namespace Sys2Proof

theorem whenZero_ok {k : Nat} (r : BitVec k) (i j : Instr) :
    whenZero r i = .ok j ↔ r = 0 ∧ i = j := by
  unfold whenZero; split <;> simp_all

theorem whenZero_error {k : Nat} (r : BitVec k) (i : Instr) (h : r ≠ 0) :
    whenZero r i = .error .reservedBits := by
  exact if_neg h

/-- Every command a word can decode to, with the fields it is made of. -/
theorem decode_ok_cases (w : Word) (i : Instr) (h : decode w = .ok i) :
    (opField w = 0x01#8 ∧ w.extractLsb' 0 24 = 0#24 ∧ i = .txclr) ∨
    (opField w = 0x02#8 ∧ w.extractLsb' 8 16 = 0#16 ∧ i = .txput (lowByte w)) ∨
    (opField w = 0x03#8 ∧ w.extractLsb' 0 24 = 0#24 ∧ i = .render) ∨
    (opField w = 0x04#8 ∧ w.extractLsb' 16 8 = 0#8 ∧ i = .mrd (rowField w) (lowByte w)) ∨
    (opField w = 0x05#8 ∧ w.extractLsb' 16 8 = 0#8 ∧ i = .glu (lowByte w) (rowField w)) ∨
    (opField w = 0x10#8 ∧ i = .swr (addrField w) (lowByte w)) ∨
    (opField w = 0x11#8 ∧ w.extractLsb' 0 8 = 0#8 ∧ i = .srd (addrField w)) ∨
    (opField w = 0x12#8 ∧ w.extractLsb' 5 3 = 0#3 ∧ i = .hxrec (addrField w) (countField w)) ∨
    (opField w = 0x13#8 ∧ w.extractLsb' 0 24 = 0#24 ∧ i = .hxeof) ∨
    (opField w = 0x14#8 ∧ w.extractLsb' 17 7 = 0#7 ∧ i = .encode (lenField w)) := by
  unfold decode at h
  repeat' (split at h)
  · obtain ⟨hr, hi⟩ := (whenZero_ok _ _ _).mp h
    exact .inl ⟨‹_›, hr, hi.symm⟩
  · obtain ⟨hr, hi⟩ := (whenZero_ok _ _ _).mp h
    exact .inr (.inl ⟨‹_›, hr, hi.symm⟩)
  · obtain ⟨hr, hi⟩ := (whenZero_ok _ _ _).mp h
    exact .inr (.inr (.inl ⟨‹_›, hr, hi.symm⟩))
  · obtain ⟨hr, hi⟩ := (whenZero_ok _ _ _).mp h
    exact .inr (.inr (.inr (.inl ⟨‹_›, hr, hi.symm⟩)))
  · obtain ⟨hr, hi⟩ := (whenZero_ok _ _ _).mp h
    exact .inr (.inr (.inr (.inr (.inl ⟨‹_›, hr, hi.symm⟩))))
  · have hi := Except.ok.inj h
    exact .inr (.inr (.inr (.inr (.inr (.inl ⟨‹_›, hi.symm⟩)))))
  · obtain ⟨hr, hi⟩ := (whenZero_ok _ _ _).mp h
    exact .inr (.inr (.inr (.inr (.inr (.inr (.inl ⟨‹_›, hr, hi.symm⟩))))))
  · obtain ⟨hr, hi⟩ := (whenZero_ok _ _ _).mp h
    exact .inr (.inr (.inr (.inr (.inr (.inr (.inr (.inl ⟨‹_›, hr, hi.symm⟩)))))))
  · obtain ⟨hr, hi⟩ := (whenZero_ok _ _ _).mp h
    exact .inr (.inr (.inr (.inr (.inr (.inr (.inr (.inr (.inl ⟨‹_›, hr, hi.symm⟩))))))))
  · obtain ⟨hr, hi⟩ := (whenZero_ok _ _ _).mp h
    exact .inr (.inr (.inr (.inr (.inr (.inr (.inr (.inr (.inr (⟨‹_›, hr, hi.symm⟩)))))))))
  · simp at h

theorem decode_txclr_iff (w : Word)  :
    decode w = .ok (.txclr) ↔ opField w = 0x01#8 ∧ w.extractLsb' 0 24 = 0#24 := by
  constructor
  · intro h
    rcases decode_ok_cases w _ h with h | h | h | h | h | h | h | h | h | h <;>
      simp_all
  · rintro ⟨h1, h2⟩
    simp [decode, whenZero, h1, h2]

theorem decode_txput_iff (w : Word) (ch : Byte) :
    decode w = .ok (.txput ch) ↔ opField w = 0x02#8 ∧ w.extractLsb' 8 16 = 0#16 ∧ lowByte w = ch := by
  constructor
  · intro h
    rcases decode_ok_cases w _ h with h | h | h | h | h | h | h | h | h | h <;>
      simp_all
  · rintro ⟨h1, h2, g0⟩
    simp [decode, whenZero, h1, h2, g0]

theorem decode_render_iff (w : Word)  :
    decode w = .ok (.render) ↔ opField w = 0x03#8 ∧ w.extractLsb' 0 24 = 0#24 := by
  constructor
  · intro h
    rcases decode_ok_cases w _ h with h | h | h | h | h | h | h | h | h | h <;>
      simp_all
  · rintro ⟨h1, h2⟩
    simp [decode, whenZero, h1, h2]

theorem decode_mrd_iff (w : Word) (row col : Byte) :
    decode w = .ok (.mrd row col) ↔ opField w = 0x04#8 ∧ w.extractLsb' 16 8 = 0#8 ∧ rowField w = row ∧ lowByte w = col := by
  constructor
  · intro h
    rcases decode_ok_cases w _ h with h | h | h | h | h | h | h | h | h | h <;>
      simp_all
  · rintro ⟨h1, h2, g0, g1⟩
    simp [decode, whenZero, h1, h2, g0, g1]

theorem decode_glu_iff (w : Word) (ch row : Byte) :
    decode w = .ok (.glu ch row) ↔ opField w = 0x05#8 ∧ w.extractLsb' 16 8 = 0#8 ∧ lowByte w = ch ∧ rowField w = row := by
  constructor
  · intro h
    rcases decode_ok_cases w _ h with h | h | h | h | h | h | h | h | h | h <;>
      simp_all
  · rintro ⟨h1, h2, g0, g1⟩
    simp [decode, whenZero, h1, h2, g0, g1]

theorem decode_swr_iff (w : Word) (addr : Addr) (b : Byte) :
    decode w = .ok (.swr addr b) ↔ opField w = 0x10#8 ∧ addrField w = addr ∧ lowByte w = b := by
  constructor
  · intro h
    rcases decode_ok_cases w _ h with h | h | h | h | h | h | h | h | h | h <;>
      simp_all
  · rintro ⟨h1, g0, g1⟩
    simp [decode, h1, g0, g1]

theorem decode_srd_iff (w : Word) (addr : Addr) :
    decode w = .ok (.srd addr) ↔ opField w = 0x11#8 ∧ w.extractLsb' 0 8 = 0#8 ∧ addrField w = addr := by
  constructor
  · intro h
    rcases decode_ok_cases w _ h with h | h | h | h | h | h | h | h | h | h <;>
      simp_all
  · rintro ⟨h1, h2, g0⟩
    simp [decode, whenZero, h1, h2, g0]

theorem decode_hxrec_iff (w : Word) (addr : Addr) (n : BitVec 5) :
    decode w = .ok (.hxrec addr n) ↔ opField w = 0x12#8 ∧ w.extractLsb' 5 3 = 0#3 ∧ addrField w = addr ∧ countField w = n := by
  constructor
  · intro h
    rcases decode_ok_cases w _ h with h | h | h | h | h | h | h | h | h | h <;>
      simp_all
  · rintro ⟨h1, h2, g0, g1⟩
    simp [decode, whenZero, h1, h2, g0, g1]

theorem decode_hxeof_iff (w : Word)  :
    decode w = .ok (.hxeof) ↔ opField w = 0x13#8 ∧ w.extractLsb' 0 24 = 0#24 := by
  constructor
  · intro h
    rcases decode_ok_cases w _ h with h | h | h | h | h | h | h | h | h | h <;>
      simp_all
  · rintro ⟨h1, h2⟩
    simp [decode, whenZero, h1, h2]

theorem decode_encode_iff (w : Word) (len : BitVec 17) :
    decode w = .ok (.encode len) ↔ opField w = 0x14#8 ∧ w.extractLsb' 17 7 = 0#7 ∧ lenField w = len := by
  constructor
  · intro h
    rcases decode_ok_cases w _ h with h | h | h | h | h | h | h | h | h | h <;>
      simp_all
  · rintro ⟨h1, h2, g0⟩
    simp [decode, whenZero, h1, h2, g0]

/-- A word whose assigned opcode comes with a nonzero reserved bit is rejected (R75). -/
theorem decode_reserved (w : Word)
    (h : (opField w = 0x01#8 ∧ w.extractLsb' 0 24 ≠ 0#24) ∨ (opField w = 0x02#8 ∧ w.extractLsb' 8 16 ≠ 0#16) ∨
      (opField w = 0x03#8 ∧ w.extractLsb' 0 24 ≠ 0#24) ∨ (opField w = 0x04#8 ∧ w.extractLsb' 16 8 ≠ 0#8) ∨
      (opField w = 0x05#8 ∧ w.extractLsb' 16 8 ≠ 0#8) ∨ (opField w = 0x11#8 ∧ w.extractLsb' 0 8 ≠ 0#8) ∨
      (opField w = 0x12#8 ∧ w.extractLsb' 5 3 ≠ 0#3) ∨ (opField w = 0x13#8 ∧ w.extractLsb' 0 24 ≠ 0#24) ∨
      (opField w = 0x14#8 ∧ w.extractLsb' 17 7 ≠ 0#7)) :
    decode w = .error .reservedBits := by
  rcases h with ⟨h, hr⟩ | ⟨h, hr⟩ | ⟨h, hr⟩ | ⟨h, hr⟩ | ⟨h, hr⟩ | ⟨h, hr⟩ | ⟨h, hr⟩ | ⟨h, hr⟩ | ⟨h, hr⟩ <;>
    simp only [decode, h, reduceIte, BitVec.reduceEq] <;> exact whenZero_error _ _ hr

end Sys2Proof
end

