-- ==== Sys2Proof/Laws/State.lean ====
section
/-! SUPPORT. One lemma per field per state update, true by definition, and the fields TXPUT leaves alone. -/

namespace Sys2Proof.Machine

/-! ### setRes -/

@[simp] theorem setRes_res (s : State) (v : Word) : (s.setRes v).res = v := rfl
@[simp] theorem setRes_status (s : State) (v : Word) : (s.setRes v).status = s.status := rfl
@[simp] theorem setRes_tlen (s : State) (v : Word) : (s.setRes v).tlen = s.tlen := rfl
@[simp] theorem setRes_tbuf (s : State) (v : Word) : (s.setRes v).tbuf = s.tbuf := rfl
@[simp] theorem setRes_mask (s : State) (v : Word) : (s.setRes v).mask = s.mask := rfl
@[simp] theorem setRes_hout (s : State) (v : Word) : (s.setRes v).hout = s.hout := rfl
@[simp] theorem setRes_src (s : State) (v : Word) : (s.setRes v).src = s.src := rfl
@[simp] theorem setRes_pending (s : State) (v : Word) : (s.setRes v).pending = s.pending := rfl
@[simp] theorem setRes_received (s : State) (v : Word) : (s.setRes v).received = s.received := rfl

/-! ### raise -/

@[simp] theorem raise_res (s : State) (k : ErrorKind) : (s.raise k).res = s.res := rfl
@[simp] theorem raise_status (s : State) (k : ErrorKind) : (s.raise k).status = setError k s.status := rfl
@[simp] theorem raise_tlen (s : State) (k : ErrorKind) : (s.raise k).tlen = s.tlen := rfl
@[simp] theorem raise_tbuf (s : State) (k : ErrorKind) : (s.raise k).tbuf = s.tbuf := rfl
@[simp] theorem raise_mask (s : State) (k : ErrorKind) : (s.raise k).mask = s.mask := rfl
@[simp] theorem raise_hout (s : State) (k : ErrorKind) : (s.raise k).hout = s.hout := rfl
@[simp] theorem raise_src (s : State) (k : ErrorKind) : (s.raise k).src = s.src := rfl
@[simp] theorem raise_pending (s : State) (k : ErrorKind) : (s.raise k).pending = s.pending := rfl
@[simp] theorem raise_received (s : State) (k : ErrorKind) : (s.raise k).received = s.received := rfl

/-! ### clearText -/

@[simp] theorem clearText_res (s : State) : (s.clearText).res = s.res := rfl
@[simp] theorem clearText_status (s : State) : (s.clearText).status = clearTrunc s.status := rfl
@[simp] theorem clearText_tlen (s : State) : (s.clearText).tlen = 0 := rfl
@[simp] theorem clearText_tbuf (s : State) : (s.clearText).tbuf = s.tbuf := rfl
@[simp] theorem clearText_mask (s : State) : (s.clearText).mask = s.mask := rfl
@[simp] theorem clearText_hout (s : State) : (s.clearText).hout = s.hout := rfl
@[simp] theorem clearText_src (s : State) : (s.clearText).src = s.src := rfl
@[simp] theorem clearText_pending (s : State) : (s.clearText).pending = s.pending := rfl
@[simp] theorem clearText_received (s : State) : (s.clearText).received = s.received := rfl

/-! ### srcWrite -/

@[simp] theorem srcWrite_res (s : State) (a : Addr) (v : Byte) : (s.srcWrite a v).res = s.res := rfl
@[simp] theorem srcWrite_status (s : State) (a : Addr) (v : Byte) : (s.srcWrite a v).status = s.status := rfl
@[simp] theorem srcWrite_tlen (s : State) (a : Addr) (v : Byte) : (s.srcWrite a v).tlen = s.tlen := rfl
@[simp] theorem srcWrite_tbuf (s : State) (a : Addr) (v : Byte) : (s.srcWrite a v).tbuf = s.tbuf := rfl
@[simp] theorem srcWrite_mask (s : State) (a : Addr) (v : Byte) : (s.srcWrite a v).mask = s.mask := rfl
@[simp] theorem srcWrite_hout (s : State) (a : Addr) (v : Byte) : (s.srcWrite a v).hout = s.hout := rfl
@[simp] theorem srcWrite_src (s : State) (a : Addr) (v : Byte) : (s.srcWrite a v).src = memWrite s.src a.toNat v := rfl
@[simp] theorem srcWrite_pending (s : State) (a : Addr) (v : Byte) : (s.srcWrite a v).pending = s.pending := rfl
@[simp] theorem srcWrite_received (s : State) (a : Addr) (v : Byte) : (s.srcWrite a v).received = s.received := rfl

/-! ### emit -/

@[simp] theorem emit_res (s : State) (cs : List Byte) : (s.emit cs).res = s.res := rfl
@[simp] theorem emit_status (s : State) (cs : List Byte) : (s.emit cs).status = s.status := rfl
@[simp] theorem emit_tlen (s : State) (cs : List Byte) : (s.emit cs).tlen = s.tlen := rfl
@[simp] theorem emit_tbuf (s : State) (cs : List Byte) : (s.emit cs).tbuf = s.tbuf := rfl
@[simp] theorem emit_mask (s : State) (cs : List Byte) : (s.emit cs).mask = s.mask := rfl
@[simp] theorem emit_hout (s : State) (cs : List Byte) : (s.emit cs).hout = s.hout ++ cs := rfl
@[simp] theorem emit_src (s : State) (cs : List Byte) : (s.emit cs).src = s.src := rfl
@[simp] theorem emit_pending (s : State) (cs : List Byte) : (s.emit cs).pending = s.pending := rfl
@[simp] theorem emit_received (s : State) (cs : List Byte) : (s.emit cs).received = s.received := rfl

/-! ### withPending -/

@[simp] theorem withPending_res (s : State) (left : List HostAction) : (s.withPending left).res = s.res := rfl
@[simp] theorem withPending_status (s : State) (left : List HostAction) : (s.withPending left).status = s.status := rfl
@[simp] theorem withPending_tlen (s : State) (left : List HostAction) : (s.withPending left).tlen = s.tlen := rfl
@[simp] theorem withPending_tbuf (s : State) (left : List HostAction) : (s.withPending left).tbuf = s.tbuf := rfl
@[simp] theorem withPending_mask (s : State) (left : List HostAction) : (s.withPending left).mask = s.mask := rfl
@[simp] theorem withPending_hout (s : State) (left : List HostAction) : (s.withPending left).hout = s.hout := rfl
@[simp] theorem withPending_src (s : State) (left : List HostAction) : (s.withPending left).src = s.src := rfl
@[simp] theorem withPending_pending (s : State) (left : List HostAction) : (s.withPending left).pending = left := rfl
@[simp] theorem withPending_received (s : State) (left : List HostAction) : (s.withPending left).received = s.received := rfl

/-! ### deliver -/

@[simp] theorem deliver_res (s : State) (v : PortValue) : (s.deliver v).res = s.res := rfl
@[simp] theorem deliver_status (s : State) (v : PortValue) : (s.deliver v).status = s.status := rfl
@[simp] theorem deliver_tlen (s : State) (v : PortValue) : (s.deliver v).tlen = s.tlen := rfl
@[simp] theorem deliver_tbuf (s : State) (v : PortValue) : (s.deliver v).tbuf = s.tbuf := rfl
@[simp] theorem deliver_mask (s : State) (v : PortValue) : (s.deliver v).mask = s.mask := rfl
@[simp] theorem deliver_hout (s : State) (v : PortValue) : (s.deliver v).hout = s.hout := rfl
@[simp] theorem deliver_src (s : State) (v : PortValue) : (s.deliver v).src = s.src := rfl
@[simp] theorem deliver_pending (s : State) (v : PortValue) : (s.deliver v).pending = s.pending := rfl
@[simp] theorem deliver_received (s : State) (v : PortValue) : (s.deliver v).received = s.received ++ [v] := rfl

/-! ### pushChar -/

@[simp] theorem pushChar_res (s : State) (ch : Byte) : (s.pushChar ch).res = s.res := by
  unfold State.pushChar; split <;> rfl

@[simp] theorem pushChar_mask (s : State) (ch : Byte) : (s.pushChar ch).mask = s.mask := by
  unfold State.pushChar; split <;> rfl

@[simp] theorem pushChar_hout (s : State) (ch : Byte) : (s.pushChar ch).hout = s.hout := by
  unfold State.pushChar; split <;> rfl

@[simp] theorem pushChar_src (s : State) (ch : Byte) : (s.pushChar ch).src = s.src := by
  unfold State.pushChar; split <;> rfl

@[simp] theorem pushChar_pending (s : State) (ch : Byte) : (s.pushChar ch).pending = s.pending := by
  unfold State.pushChar; split <;> rfl

@[simp] theorem pushChar_received (s : State) (ch : Byte) : (s.pushChar ch).received = s.received := by
  unfold State.pushChar; split <;> rfl

theorem pushChar_of_room (s : State) (ch : Byte) (h : s.tlen.toNat < 14) :
    s.pushChar ch = { s with tbuf := s.tbuf.set s.tlen.toNat ch h, tlen := s.tlen + 1 } := by
  simp [State.pushChar, h]

theorem pushChar_of_full (s : State) (ch : Byte) (h : 14 ≤ s.tlen.toNat) :
    s.pushChar ch = { s with status := setTrunc s.status } := by
  simp [State.pushChar, Nat.not_lt.mpr h]

end Sys2Proof.Machine
end

