-- ==== Sys2Proof/Laws/Flags.lean ====
section
/-! SUPPORT. STATUS bit by bit: what each flag operation does to each bit (10_state.md R22). -/

namespace Sys2Proof.Machine

theorem errorMask_bit (k : ErrorKind) (i : Nat) :
    k.mask.getLsbD i = (i == match k with | .ill => 0 | .range => 1) := by
  by_cases h : i < 32
  · have hall : ∀ i, i < 32 → (0x1#32).getLsbD i = (i == 0) ∧ (0x2#32).getLsbD i = (i == 1) := by decide
    cases k
    · exact (hall i h).1
    · exact (hall i h).2
  · rw [BitVec.getLsbD_of_ge _ _ (by omega)]
    cases k <;> (symm; simp only [beq_eq_false_iff_ne]; omega)

theorem truncMask_bit (i : Nat) : truncMask.getLsbD i = (i == 2) := by
  by_cases h : i < 32
  · have hall : ∀ i, i < 32 → (0x4#32).getLsbD i = (i == 2) := by decide
    exact hall i h
  · rw [BitVec.getLsbD_of_ge _ _ (by omega)]
    symm; simp only [beq_eq_false_iff_ne]; omega

theorem setError_bit (k : ErrorKind) (st : Word) (i : Nat) :
    (setError k st).getLsbD i = (st.getLsbD i || (i == match k with | .ill => 0 | .range => 1)) := by
  rw [setError, BitVec.getLsbD_or, errorMask_bit]

theorem setTrunc_bit (st : Word) (i : Nat) :
    (setTrunc st).getLsbD i = (st.getLsbD i || i == 2) := by
  rw [setTrunc, BitVec.getLsbD_or, truncMask_bit]

theorem clearTrunc_bit (st : Word) (i : Nat) :
    (clearTrunc st).getLsbD i = (st.getLsbD i && i != 2) := by
  rw [clearTrunc, BitVec.getLsbD_and, BitVec.getLsbD_not, truncMask_bit]
  by_cases h : i < 32
  · simp [h]; rfl
  · simp [BitVec.getLsbD_of_ge _ _ (Nat.not_lt.mp h)]

/-- What the STATUS port returns: the three defined bits (R22). -/
theorem statusRead_bit (st : Word) (i : Nat) :
    (statusRead st).getLsbD i = (st.getLsbD i && decide (i < 3)) := by
  rw [statusRead, BitVec.getLsbD_and]
  congr 1
  by_cases h : i < 32
  · have hall : ∀ i, i < 32 → (0x7#32).getLsbD i = decide (i < 3) := by decide
    exact hall i h
  · rw [BitVec.getLsbD_of_ge _ _ (by omega)]
    symm; simp only [decide_eq_false_iff_not]; omega

end Sys2Proof.Machine
end

