-- ==== Sys2Proof/Laws/Source.lean ====
section
/-! SUPPORT. The Source Memory: read after write, the canonical form, and what reading a range answers (20_memory.md R52, R53). -/

namespace Sys2Proof.Machine

@[simp] theorem memRead_memWrite_same (m : Memory) (a : Nat) (v : Byte) :
    memRead (memWrite m a v) a = some v := by
  induction m with
  | nil => simp [memWrite, memRead]
  | cons c m ih =>
    obtain ⟨k, x⟩ := c
    simp only [memWrite]
    split
    · rename_i h; simp [memRead, Nat.ne_of_lt h, ih]
    · split <;> simp [memRead]

theorem memRead_memWrite_other (m : Memory) (a b : Nat) (v : Byte) (h : b ≠ a) :
    memRead (memWrite m a v) b = memRead m b := by
  induction m with
  | nil => simp [memWrite, memRead, Ne.symm h]
  | cons c m ih =>
    obtain ⟨k, x⟩ := c
    simp only [memWrite]
    split
    · simp only [memRead, ih]
    · split
      · rename_i hk; subst hk; simp [memRead, Ne.symm h]
      · simp [memRead, Ne.symm h]

theorem mem_memWrite (m : Memory) (a : Nat) (v : Byte) (c : Host.Cell) (h : c ∈ memWrite m a v) :
    c = (a, v) ∨ c ∈ m := by
  induction m with
  | nil => simpa [memWrite] using h
  | cons d m ih =>
    obtain ⟨k, x⟩ := d
    simp only [memWrite] at h
    split at h
    · rcases List.mem_cons.mp h with h | h
      · exact .inr (by simp [h])
      · rcases ih h with h | h
        · exact .inl h
        · exact .inr (by simp [h])
    · split at h
      · rcases List.mem_cons.mp h with h | h
        · exact .inl h
        · exact .inr (by simp [h])
      · rcases List.mem_cons.mp h with h | h
        · exact .inl h
        · exact .inr h

/-- A write keeps the canonical form. -/
theorem memWrite_wf (m : Memory) (a : Nat) (v : Byte) (ha : a < 0x10000) (h : Memory.wf m) :
    Memory.wf (memWrite m a v) := by
  obtain ⟨hp, hb⟩ := h
  refine ⟨?_, ?_⟩
  · induction m with
    | nil => simp [memWrite]
    | cons d m ih =>
      obtain ⟨k, x⟩ := d
      have hm : ∀ c ∈ m, k < c.1 := (List.pairwise_cons.mp hp).1
      have hp' := (List.pairwise_cons.mp hp).2
      have ih' := ih hp' fun c hc => hb c (by simp [hc])
      simp only [memWrite]
      split
      · rename_i hk
        refine List.pairwise_cons.mpr ⟨fun c hc => ?_, ih'⟩
        rcases mem_memWrite m a v c hc with rfl | hc
        · exact hk
        · exact hm c hc
      · split
        · rename_i hk
          exact List.pairwise_cons.mpr ⟨fun c hc => hk ▸ hm c hc, hp'⟩
        · rename_i h1 h2
          have hak : a < k := by omega
          refine List.pairwise_cons.mpr ⟨fun c hc => ?_, hp⟩
          rcases List.mem_cons.mp hc with rfl | hc
          · exact hak
          · exact Nat.lt_trans hak (hm c hc)
  · intro c hc
    rcases mem_memWrite m a v c hc with rfl | hc
    · exact ha
    · exact hb c hc

theorem srcWrite_wf (s : State) (a : Addr) (v : Byte) (h : Memory.wf s.src) :
    Memory.wf (s.srcWrite a v).src := memWrite_wf _ _ _ a.isLt h

/-- Reading a range answers its bytes exactly where all have been written. -/
theorem srcReadBytes_of_written (m : Memory) (a n : Nat) (h : Written m a n) :
    srcReadBytes m a n = .ok (srcBytes m a n) := by
  induction n generalizing a with
  | zero => rfl
  | succ n ih =>
    obtain ⟨b, hb⟩ := Option.ne_none_iff_exists'.mp (h 0 (by omega))
    rw [Nat.add_zero] at hb
    have ih' := ih (a + 1) fun j hj => by
      have := h (j + 1) (by omega)
      rwa [show a + 1 + j = a + (j + 1) by omega]
    have hcons : srcBytes m a (n + 1) = b :: srcBytes m (a + 1) n := by
      simp only [srcBytes, List.range_succ_eq_map, List.map_cons, List.map_map]
      refine List.cons_eq_cons.mpr ⟨by simp [hb], List.map_congr_left fun j _ => ?_⟩
      simp only [Function.comp_apply]
      rw [show a + j.succ = a + 1 + j by omega]
    simp only [srcReadBytes, srcRead, hb, ih', hcons]

/-- Reading a range faults at the first byte that has not been written. -/
theorem srcReadBytes_of_unwritten (m : Memory) (a n x : Nat) (h : FirstUnwritten m a n x) :
    srcReadBytes m a n = .error (.srcUnwritten x) := by
  obtain ⟨h1, h2, h3, h4⟩ := h
  induction n generalizing a with
  | zero => omega
  | succ n ih =>
    by_cases hx : x = a
    · subst hx; simp [srcReadBytes, srcRead, h3]
    · obtain ⟨b, hb⟩ := Option.ne_none_iff_exists'.mp (h4 a (by omega) (by omega))
      have ih' := ih (a + 1) (by omega) (by omega) fun y hy => h4 y (by omega)
      simp only [srcReadBytes, srcRead, hb, ih']

/-- A range is all written, or has a first unwritten byte. -/
theorem written_or_first (m : Memory) (a n : Nat) :
    Written m a n ∨ ∃ x, FirstUnwritten m a n x := by
  induction n with
  | zero => exact .inl fun j hj => by omega
  | succ n ih =>
    rcases ih with hw | ⟨x, h1, h2, h3, h4⟩
    · by_cases hn : memRead m (a + n) = none
      · refine .inr ⟨a + n, by omega, by omega, hn, fun y hy hyn => ?_⟩
        have := hw (y - a) (by omega)
        rwa [show a + (y - a) = y by omega] at this
      · refine .inl fun j hj => ?_
        by_cases hjn : j = n
        · subst hjn; exact hn
        · exact hw j (by omega)
    · exact .inr ⟨x, h1, by omega, h3, h4⟩

@[simp] theorem srcBytes_length (m : Memory) (a n : Nat) : (srcBytes m a n).length = n := by
  simp [srcBytes]

end Sys2Proof.Machine
end

