-- ==== Sys2Proof/Laws/Hex.lean ====
section
/-! SUPPORT. The records in plain numbers, and what HXREC and ENCODE read and append (43_hex.md R180 to R188). -/

namespace Sys2Proof.Machine

/-! ### Records -/

theorem hex2_eq (v : Byte) : hex2 v = spell v.toNat := by
  revert v; decide +revert

theorem hex4_eq (a : Addr) : hex4 a = spell (a.toNat / 256) ++ spell (a.toNat % 256) := by
  rw [hex4, hex2_eq, hex2_eq]
  have h1 : (a.extractLsb' 8 8).toNat = a.toNat / 256 := by
    rw [BitVec.extractLsb'_toNat, Nat.shiftRight_eq_div_pow]; have := a.isLt; omega
  have h2 : (a.extractLsb' 0 8).toNat = a.toNat % 256 := by
    rw [BitVec.extractLsb'_toNat]; simp
  rw [h1, h2]

theorem recordSum_eq (n : Byte) (a : Addr) (t : Byte) (data : List Byte) :
    recordSum n a t data =
      n.toNat + a.toNat / 256 + a.toNat % 256 + t.toNat + (data.map BitVec.toNat).sum := by
  have h1 : (a.extractLsb' 8 8).toNat = a.toNat / 256 := by
    rw [BitVec.extractLsb'_toNat, Nat.shiftRight_eq_div_pow]; have := a.isLt; omega
  have h2 : (a.extractLsb' 0 8).toNat = a.toNat % 256 := by
    rw [BitVec.extractLsb'_toNat]; simp
  rw [recordSum, h1, h2]

/-- A data record of fewer than 256 bytes, in plain numbers (R180 to R183). -/
theorem dataRecord_eq (a : Addr) (data : List Byte) (h : data.length < 256) :
    dataRecord a data = recordText a.toNat data := by
  have hn : (BitVec.ofNat 8 data.length).toNat = data.length := by simp; omega
  have hd : data.flatMap hex2 = data.flatMap fun d => spell d.toNat := by
    rw [funext hex2_eq]
  have hc : (checksum (BitVec.ofNat 8 data.length) a 0x00#8 data).toNat =
      (256 - (data.length + a.toNat / 256 + a.toNat % 256 + 0 + (data.map BitVec.toNat).sum) % 256) % 256 := by
    rw [checksum, recordSum_eq, hn, BitVec.toNat_ofNat]
    exact Nat.mod_mod _ _
  simp only [dataRecord, recordText, hex2_eq, hex4_eq, hn, hd, hc, colon, lineFeed]
  simp

theorem eofRecord_eq : eofRecord = eofText := by decide

@[simp] theorem spell_length (v : Nat) : (spell v).length = 2 := rfl

theorem recordText_length (a : Nat) (data : List Byte) :
    (recordText a data).length = 12 + 2 * data.length := by
  have : ∀ l : List Byte, (l.flatMap fun d => spell d.toNat).length = 2 * l.length := by
    intro l
    induction l with
    | nil => rfl
    | cons d l ih => simp only [List.flatMap_cons, List.length_append, spell_length, ih, List.length_cons]; omega
  simp only [recordText, List.length_append, spell_length, this, List.length_cons, List.length_nil]
  omega

/-! ### Reading chunks -/

theorem chunkRecord_of_written (m : Memory) (a n : Nat) (h : Written m a n) :
    chunkRecord m a n = .ok (dataRecord (BitVec.ofNat 16 a) (srcBytes m a n)) := by
  rw [chunkRecord, srcReadBytes_of_written m a n h]

theorem chunkRecord_of_unwritten (m : Memory) (a n x : Nat) (h : FirstUnwritten m a n x) :
    chunkRecord m a n = .error (.srcUnwritten x) := by
  rw [chunkRecord, srcReadBytes_of_unwritten m a n x h]

/-- A part of a range that is written is written. -/
theorem Written.sub {m : Memory} {a n b k : Nat} (h : Written m a n) (h1 : a ≤ b) (h2 : b + k ≤ a + n) :
    Written m b k := by
  intro j hj
  have := h (b + j - a) (by omega)
  rwa [show a + (b + j - a) = b + j by omega] at this

/-- What ENCODE's loop appends from chunk `i` on, all bytes being written: the records of the chunks
left, then the end-of-file record (R187). -/
theorem encodeFrom_of_written (m : Memory) (len : Nat) (hw : Written m 0 len) :
    ∀ fuel i, 16 * (i + fuel) < len + 16 →
      encodeFrom m len fuel (16 * i) =
        .ok (((List.range fuel).flatMap fun k => dataRecord (BitVec.ofNat 16 (16 * (i + k)))
          (srcBytes m (16 * (i + k)) (min 16 (len - 16 * (i + k))))) ++ eofRecord) := by
  intro fuel
  induction fuel with
  | zero => intro i _; simp [encodeFrom]
  | succ fuel ih =>
    intro i hi
    have hlt : 16 * i < len := by omega
    have hch := chunkRecord_of_written m (16 * i) (min 16 (len - 16 * i)) (hw.sub (by omega) (by omega))
    have ih' := ih (i + 1) (by omega)
    rw [show 16 * (i + 1) = 16 * i + 16 by omega] at ih'
    simp only [encodeFrom, hlt, if_true, hch, ih']
    congr 1
    rw [List.range_succ_eq_map, List.flatMap_cons, List.flatMap_map, Nat.add_zero, List.append_assoc]
    congr 3
    funext k
    simp only [Nat.succ_eq_add_one, show i + 1 + k = i + (k + 1) by omega]

/-- ENCODE's loop faults at the first byte that has not been written (R187; log entry 13). -/
theorem encodeFrom_of_unwritten (m : Memory) (len x : Nat) (hx : FirstUnwritten m 0 len x) :
    ∀ fuel i, len ≤ 16 * (i + fuel) → 16 * i ≤ x →
      encodeFrom m len fuel (16 * i) = .error (.srcUnwritten x) := by
  obtain ⟨-, h2, h3, h4⟩ := hx
  intro fuel
  induction fuel with
  | zero => intro i h1 h5; omega
  | succ fuel ih =>
    intro i h1 h5
    have hlt : 16 * i < len := by omega
    by_cases hin : x < 16 * i + 16
    · have hch := chunkRecord_of_unwritten m (16 * i) (min 16 (len - 16 * i)) x
        ⟨h5, by omega, h3, fun y _ hy => h4 y (by omega) hy⟩
      simp only [encodeFrom, hlt, if_true, hch]
    · have hch := chunkRecord_of_written m (16 * i) (min 16 (len - 16 * i))
        (fun j hj => h4 (16 * i + j) (by omega) (by omega))
      have ih' := ih (i + 1) (by omega) (by omega)
      rw [show 16 * (i + 1) = 16 * i + 16 by omega] at ih'
      simp only [encodeFrom, hlt, if_true, hch, ih']

theorem encodeText_of_unwritten (m : Memory) (len x : Nat) (hx : FirstUnwritten m 0 len x) :
    encodeText m len = .error (.srcUnwritten x) :=
  encodeFrom_of_unwritten m len x hx ((len + 15) / 16) 0 (by omega) (by omega)

/-- The chunk of a source range is the chunk of its bytes. -/
theorem srcBytes_chunk (m : Memory) (len k : Nat) :
    srcBytes m (16 * k) (min 16 (len - 16 * k)) = ((srcBytes m 0 len).drop (16 * k)).take 16 := by
  apply List.ext_getElem
  · simp
  · intro i h1 h2
    simp [srcBytes]

/-- What ENCODE appends, all bytes being written: the HEX file of its bytes (R187). -/
theorem encodeText_of_written (m : Memory) (len : Nat) (hl : len ≤ 0x10000) (hw : Written m 0 len) :
    encodeText m len = .ok (fileText (srcBytes m 0 len)) := by
  have h := encodeFrom_of_written m len hw ((len + 15) / 16) 0 (by omega)
  rw [Nat.mul_zero] at h
  rw [encodeText, h, fileText, srcBytes_length, eofRecord_eq]
  congr 2
  rw [List.flatMap_def, List.flatMap_def]
  congr 1
  refine List.map_congr_left fun k hk => ?_
  have hk : k < (len + 15) / 16 := List.mem_range.mp hk
  rw [Nat.zero_add, srcBytes_chunk, dataRecord_eq _ _ (by simp), BitVec.toNat_ofNat,
    Nat.mod_eq_of_lt (show 16 * k < 2 ^ 16 by omega)]

end Sys2Proof.Machine
end

