-- ==== Sys2Proof/Laws/Mask.lean ====
section
/-! SUPPORT. The mask pixel by pixel: what clearing and setting do to a read (10_state.md R24, 41_render.md R134). -/

namespace Sys2Proof.Machine

@[simp] theorem maskRead_maskClear (r c : Nat) : maskRead maskClear r c = false := by
  unfold maskRead maskClear; split <;> simp

theorem maskRead_maskSet (m : Mask) (r c r' c' : Nat) :
    maskRead (maskSet m r c) r' c' =
      (maskRead m r' c' || (decide (r = r' ∧ c = c') && decide (r < 7 ∧ c < 128))) := by
  by_cases h : r < 7 ∧ c < 128
  · by_cases h' : r' < 7 ∧ c' < 128
    · simp only [maskRead, maskSet, h, h', dif_pos, and_self, decide_true, Bool.and_true]
      by_cases hr : r = r'
      · subst hr
        by_cases hc : c = c'
        · subst hc; simp
        · simp [hc]
      · simp [hr]
    · simp only [maskRead, h', dif_neg, not_false_eq_true, Bool.false_or]
      by_cases he : r = r' ∧ c = c'
      · obtain ⟨rfl, rfl⟩ := he; exact absurd h h'
      · simp [he]
  · simp [maskSet, h]

theorem maskRead_outside (m : Mask) (r c : Nat) (h : ¬(r < 7 ∧ c < 128)) : maskRead m r c = false := by
  simp [maskRead, h]

end Sys2Proof.Machine
end

