-- ==== Sys2Proof/Laws/PerInstr.lean ====
section
/-! SUPPORT. Per command: its word lies in its row of the opcode table, match and mask (30_encoding.md R74). -/

namespace Sys2Proof.Laws.TableRow

/-- The row of the opcode table of each command: mask and match (R74). -/
def row : Instr → Word × Word
  | .txclr => (0xFFFFFFFF#32, 0x01000000#32)
  | .txput _ => (0xFFFFFF00#32, 0x02000000#32)
  | .render => (0xFFFFFFFF#32, 0x03000000#32)
  | .mrd _ _ => (0xFFFF0000#32, 0x04000000#32)
  | .glu _ _ => (0xFFFF0000#32, 0x05000000#32)
  | .swr _ _ => (0xFF000000#32, 0x10000000#32)
  | .srd _ => (0xFF0000FF#32, 0x11000000#32)
  | .hxrec _ _ => (0xFF0000E0#32, 0x12000000#32)
  | .hxeof => (0xFFFFFFFF#32, 0x13000000#32)
  | .encode _ => (0xFFFE0000#32, 0x14000000#32)

/-- The command's word has its row's pattern. -/
def Statement (i : Instr) : Prop := encode i &&& (row i).1 = (row i).2

/-- Two words agree when their 32 bits do. -/
theorem word_ext (v w : Word) (h : ∀ i, i < 32 → v.getLsbD i = w.getLsbD i) : v = w :=
  BitVec.eq_of_getLsbD_eq h

theorem txclr : Statement .txclr := by unfold Statement; decide

theorem txput (ch : Byte) : Statement (.txput ch) := by
  refine word_ext _ _ fun i hi => ?_
  simp only [encode, row, BitVec.getLsbD_and, BitVec.getLsbD_or, BitVec.getLsbD_setWidth]
  interval_cases i <;> simp

theorem render : Statement .render := by unfold Statement; decide

theorem mrd (r c : Byte) : Statement (.mrd r c) := by
  refine word_ext _ _ fun i hi => ?_
  simp only [encode, row, BitVec.getLsbD_and, BitVec.getLsbD_or, BitVec.getLsbD_setWidth, BitVec.getLsbD_shiftLeft]
  interval_cases i <;> simp

theorem glu (ch r : Byte) : Statement (.glu ch r) := by
  refine word_ext _ _ fun i hi => ?_
  simp only [encode, row, BitVec.getLsbD_and, BitVec.getLsbD_or, BitVec.getLsbD_setWidth, BitVec.getLsbD_shiftLeft]
  interval_cases i <;> simp

theorem swr (a : Addr) (b : Byte) : Statement (.swr a b) := by
  refine word_ext _ _ fun i hi => ?_
  simp only [encode, row, BitVec.getLsbD_and, BitVec.getLsbD_or, BitVec.getLsbD_setWidth, BitVec.getLsbD_shiftLeft]
  interval_cases i <;> simp

theorem srd (a : Addr) : Statement (.srd a) := by
  refine word_ext _ _ fun i hi => ?_
  simp only [encode, row, BitVec.getLsbD_and, BitVec.getLsbD_or, BitVec.getLsbD_setWidth, BitVec.getLsbD_shiftLeft]
  interval_cases i <;> simp

theorem hxrec (a : Addr) (n : BitVec 5) : Statement (.hxrec a n) := by
  refine word_ext _ _ fun i hi => ?_
  simp only [encode, row, BitVec.getLsbD_and, BitVec.getLsbD_or, BitVec.getLsbD_setWidth, BitVec.getLsbD_shiftLeft]
  interval_cases i <;> simp

theorem hxeof : Statement .hxeof := by unfold Statement; decide

theorem encode (len : BitVec 17) : Statement (.encode len) := by
  refine word_ext _ _ fun i hi => ?_
  simp only [Sys2Proof.encode, row, BitVec.getLsbD_and, BitVec.getLsbD_or, BitVec.getLsbD_setWidth]
  interval_cases i <;> simp

end Sys2Proof.Laws.TableRow
end

