-- ==== Sys2Proof/Laws/Text.lean ====
section
/-! SUPPORT. The text buffer: what the codes RENDER reads become under TXCLR and TXPUT (41_render.md R121, R122). -/

namespace Sys2Proof.Machine

theorem text_length_le (s : State) : s.text.length ≤ 14 := by
  simp [State.text]

theorem text_length (s : State) (h : s.tlen.toNat ≤ 14) : s.text.length = s.tlen.toNat := by
  simp [State.text]; omega

/-- The code at an index below TLEN is the register's. -/
theorem text_getElem? (s : State) (i : Nat) (hi : i < s.tlen.toNat) (h14 : i < 14) :
    s.text[i]? = some s.tbuf[i] := by
  simp [State.text, hi, h14]

@[simp] theorem clearText_text (s : State) : s.clearText.text = [] := by
  simp [State.text]

theorem pushChar_tlen (s : State) (ch : Byte) (h : s.tlen.toNat < 14) :
    (s.pushChar ch).tlen.toNat = s.tlen.toNat + 1 := by
  rw [pushChar_of_room s ch h]
  change (s.tlen + 1#4).toNat = _
  rw [BitVec.toNat_add, show (1#4).toNat = 1 from rfl]
  omega

/-- With room, TXPUT appends its code to the text. -/
theorem pushChar_text (s : State) (ch : Byte) (h : s.tlen.toNat < 14) :
    (s.pushChar ch).text = s.text ++ [ch] := by
  have hl := pushChar_tlen s ch h
  apply List.ext_getElem?
  intro i
  rw [State.text, hl, pushChar_of_room s ch h]
  have hlen := text_length s (by omega)
  simp only [Vector.toList_set, List.getElem?_take, List.getElem?_append, hlen]
  by_cases hi : i < s.tlen.toNat
  · simp [hi, Nat.lt_succ_of_lt hi, State.text, Nat.ne_of_gt hi]
  · by_cases he : i = s.tlen.toNat
    · subst he; simp [h]
    · simp [hi, show ¬ i < s.tlen.toNat + 1 by omega, show i - s.tlen.toNat ≠ 0 by omega]

theorem text_of_same (s t : State) (h : SameText s t) : t.text = s.text := by
  have : t.tbuf = s.tbuf := Vector.ext fun i hi => h.2 i hi
  simp [State.text, h.1, this]

end Sys2Proof.Machine
end

