-- ==== Sys2Proof/Laws/Render.lean ====
section
/-! SUPPORT. The renderer: the classes of codes in plain numbers, and which pixels one glyph row, one scan-line and a whole RENDER set (40_font.md R100 to R104, 41_render.md R126 to R136). -/

namespace Sys2Proof.Machine

/-! ### The classes of codes -/

theorem norm_eq (b : Byte) : norm b = BitVec.ofNat 8 (foldCode b.toNat) := by
  revert b; decide +revert

theorem codeSpace_eq (b : Byte) : codeSpace b = isSpace b := by
  revert b; decide +revert

theorem codeNarrow_eq (b : Byte) : codeNarrow b = isNarrow b := by
  revert b; decide +revert

theorem codeDefined_eq (b : Byte) : codeDefined b = isDefined b := by
  revert b; decide +revert

theorem isDefined_norm (b : Byte) : isDefined (norm b) = isDefined b := by
  revert b; decide +revert

theorem norm_norm (b : Byte) : norm (norm b) = norm b := by
  revert b; decide +revert

/-- A narrow code is a drawn one (R104, R123). -/
theorem isDrawn_of_isNarrow (b : Byte) (h : isNarrow b = true) : isDrawn b = true := by
  revert b; decide +revert

/-- The space is defined (R101). -/
theorem isDefined_of_isSpace (b : Byte) (h : isSpace b = true) : isDefined b = true := by
  revert b; decide +revert

theorem codeDrawn_eq (b : Byte) : codeDrawn b = isDrawn b := by
  rw [codeDrawn, isDrawn, codeDefined_eq, codeSpace_eq]

theorem codeWidth_eq (b : Byte) : codeWidth b = drawnWidth b := by
  rw [codeWidth, drawnWidth, codeNarrow_eq]

theorem drawnWidth_le (b : Byte) : drawnWidth b ≤ 5 := by
  unfold drawnWidth; split <;> omega

theorem glyphBit_blank (r c : Nat) : glyphBit blankGlyph r c = false := by
  unfold glyphBit blankGlyph; split <;> simp

/-- The bit a code shows, through the lookup the commands use. -/
theorem fontBit_eq (rom : GlyphRom) (b : Byte) (r c : Nat) :
    fontBit rom b r c = glyphBit (glyphOf rom (norm b)) r c := by
  rw [fontBit, codeSpace_eq, ← norm_eq, glyphOf, isSpace]
  by_cases h : norm b = 0x20#8
  · simp [h, glyphBit_blank]
  · simp [h]

/-! ### Pixels -/

/-- Drawing one glyph row sets exactly the pixels its bits land on, inside the grid (R128, R132). -/
theorem drawGlyphRow_pixel (g : Glyph) (line : Nat) (cur : Int) (wd : Nat) (m : Mask) (r c : Nat) :
    maskRead (drawGlyphRow g line cur wd m) r c = true ↔
      maskRead m r c = true ∨ (r = line ∧ r < 7 ∧ c < 128 ∧
        ∃ k, k < wd ∧ cur + (k : Int) = c ∧ glyphBit g line k = true) := by
  induction wd with
  | zero => simp [drawGlyphRow]
  | succ n ih =>
    have hstep : drawGlyphRow g line cur (n + 1) m =
        if glyphBit g line n && decide (0 ≤ cur + (n : Int)) && decide (cur + (n : Int) < 128) then
          maskSet (drawGlyphRow g line cur n m) line (cur + (n : Int)).toNat
        else drawGlyphRow g line cur n m := by
      simp only [drawGlyphRow, List.range_succ, List.foldl_append, List.foldl_cons, List.foldl_nil]
    have hex : (∃ k, k < n + 1 ∧ cur + (k : Int) = c ∧ glyphBit g line k = true) ↔
        (∃ k, k < n ∧ cur + (k : Int) = c ∧ glyphBit g line k = true) ∨
          (cur + (n : Int) = c ∧ glyphBit g line n = true) := by
      constructor
      · rintro ⟨k, hk, h⟩
        by_cases he : k = n
        · exact .inr (he ▸ h)
        · exact .inl ⟨k, by omega, h⟩
      · rintro (⟨k, hk, h⟩ | h)
        · exact ⟨k, by omega, h⟩
        · exact ⟨n, by omega, h⟩
    rw [hstep, hex]
    by_cases hb : glyphBit g line n = true
    · by_cases hx : 0 ≤ cur + (n : Int) ∧ cur + (n : Int) < 128
      · have hx' : (cur + (n : Int)).toNat < 128 := by omega
        simp only [hb, hx, decide_true, Bool.and_self, if_true, maskRead_maskSet, Bool.or_eq_true,
          ih, Bool.and_eq_true, decide_eq_true_eq, and_true]
        constructor
        · rintro ((h | h) | ⟨⟨h1, h2⟩, h3⟩)
          · exact .inl h
          · exact .inr ⟨h.1, h.2.1, h.2.2.1, .inl h.2.2.2⟩
          · exact .inr ⟨h1.symm, by omega, by omega, .inr (by omega)⟩
        · rintro (h | ⟨h1, h2, h3, h4 | h4⟩)
          · exact .inl (.inl h)
          · exact .inl (.inr ⟨h1, h2, h3, h4⟩)
          · exact .inr ⟨⟨h1.symm, by omega⟩, by omega, hx'⟩
      · have hx' : (decide (0 ≤ cur + (n : Int)) && decide (cur + (n : Int) < 128)) = false := by
          simp only [Bool.and_eq_false_iff, decide_eq_false_iff_not]; omega
        simp only [Bool.and_assoc, hx', Bool.and_false, Bool.false_eq_true, if_false, ih]
        constructor
        · rintro (h | ⟨h1, h2, h3, h4⟩)
          · exact .inl h
          · exact .inr ⟨h1, h2, h3, .inl h4⟩
        · rintro (h | ⟨h1, h2, h3, h4 | h4⟩)
          · exact .inl h
          · exact .inr ⟨h1, h2, h3, h4⟩
          · omega
    · simp [hb, ih]

/-- How far a character moves the cursor: 7 when defined, less 1 when narrow (R126 to R129). -/
theorem advanceCursor_eq (t : Byte) (cur : Int) :
    advanceCursor t cur = cur + (if isDefined t then 7 else 0) - (if isNarrow t then 1 else 0) := by
  have hn := isDrawn_of_isNarrow t
  have hs := isDefined_of_isSpace t
  simp only [isDrawn, Bool.and_eq_true, Bool.not_eq_true'] at hn
  unfold advanceCursor placeCursor
  cases h1 : isSpace t <;> cases h2 : isDefined t <;> cases h3 : isNarrow t <;> simp_all; omega

@[simp] theorem cursorAfter_nil (cur : Int) : cursorAfter [] cur = cur := rfl

@[simp] theorem cursorAfter_cons (t : Byte) (ts : List Byte) (cur : Int) :
    cursorAfter (t :: ts) cur = cursorAfter ts (advanceCursor t cur) := rfl

theorem cursorAfter_append (ts us : List Byte) (cur : Int) :
    cursorAfter (ts ++ us) cur = cursorAfter us (cursorAfter ts cur) := List.foldl_append

/-- The cursor behind some characters in closed form (R136). -/
theorem cursorAfter_eq (ts : List Byte) (cur : Int) :
    cursorAfter ts cur = cur + 7 * (ts.countP isDefined : Nat) - (ts.countP isNarrow : Nat) := by
  induction ts generalizing cur with
  | nil => simp
  | cons t ts ih =>
    rw [cursorAfter_cons, ih, advanceCursor_eq, List.countP_cons, List.countP_cons]
    split <;> split <;> push_cast <;> ring

/-- A walk over two parts is the walk over the second from where the first leaves the cursor. -/
theorem walkLine_append (rom : GlyphRom) (line : Nat) (ts us : List Byte) (cur : Int) (m : Mask) :
    walkLine rom line (ts ++ us) cur m =
      walkLine rom line us (cursorAfter ts cur) (walkLine rom line ts cur m) := by
  induction ts generalizing cur m with
  | nil => rfl
  | cons t ts ih => simp only [List.cons_append, walkLine, ih, cursorAfter_cons]

/-- Where the cursor stands on reaching index `i` of a walk from `cur`, the narrow shift of the character
itself counted (R126 to R129). -/
def walkColumn (ts : List Byte) (cur : Int) (i : Nat) : Int :=
  cur + 7 * ((ts.take i).countP isDefined : Nat) - ((ts.take (i + 1)).countP isNarrow : Nat)

/-- Walking one scan-line sets exactly the pixels some drawn character's bits land on (R126 to R134). -/
theorem walkLine_pixel (rom : GlyphRom) (line : Nat) (ts : List Byte) (cur : Int) (m : Mask) (r c : Nat) :
    maskRead (walkLine rom line ts cur m) r c = true ↔
      maskRead m r c = true ∨ (r = line ∧ r < 7 ∧ c < 128 ∧ ∃ (i : Nat) (b : Byte) (k : Nat),
        ts[i]? = some b ∧ isDrawn b = true ∧ k < drawnWidth b ∧
        walkColumn ts cur i + (k : Int) = c ∧ glyphBit (glyphOf rom (norm b)) line k = true) := by
  induction ts generalizing cur m with
  | nil => simp [walkLine]
  | cons t ts ih =>
    have hexists : ∀ (P : Nat → Byte → Nat → Prop),
        (∃ (i : Nat) (b : Byte) (k : Nat), (t :: ts)[i]? = some b ∧ P i b k) ↔
          (∃ k, P 0 t k) ∨ ∃ (i : Nat) (b : Byte) (k : Nat), ts[i]? = some b ∧ P (i + 1) b k := by
      intro P
      constructor
      · rintro ⟨i, b, k, hi, h⟩
        cases i with
        | zero =>
          have hb : t = b := by simpa using hi
          exact .inl ⟨k, hb ▸ h⟩
        | succ i => exact .inr ⟨i, b, k, by simpa using hi, h⟩
      · rintro (⟨k, h⟩ | ⟨i, b, k, hi, h⟩)
        · exact ⟨0, t, k, by simp, h⟩
        · exact ⟨i + 1, b, k, by simpa using hi, h⟩
    rw [hexists fun i b k => isDrawn b = true ∧ k < drawnWidth b ∧
      walkColumn (t :: ts) cur i + (k : Int) = c ∧ glyphBit (glyphOf rom (norm b)) line k = true]
    have hcol : ∀ i, walkColumn (t :: ts) cur (i + 1) =
        walkColumn ts (cur + (if isDefined t then 7 else 0) - (if isNarrow t then 1 else 0)) i := by
      intro i
      simp only [walkColumn, List.take_succ_cons, List.countP_cons]
      split <;> split <;> push_cast <;> ring
    have hz : walkColumn (t :: ts) cur 0 = placeCursor t cur := by
      simp only [walkColumn, placeCursor, List.take_zero, List.take_succ_cons, List.countP_cons, List.countP_nil]
      split <;> simp
    simp only [walkLine, ih, hcol, advanceCursor_eq]
    by_cases hdr : isDrawn t = true
    · simp only [hdr, if_true, drawGlyphRow_pixel, true_and, hz]
      constructor
      · rintro ((h | ⟨h1, h2, h3, h4⟩) | ⟨h1, h2, h3, h4⟩)
        · exact .inl h
        · exact .inr ⟨h1, h2, h3, .inl h4⟩
        · exact .inr ⟨h1, h2, h3, .inr h4⟩
      · rintro (h | ⟨h1, h2, h3, h4 | h4⟩)
        · exact .inl (.inl h)
        · exact .inl (.inr ⟨h1, h2, h3, h4⟩)
        · exact .inr ⟨h1, h2, h3, h4⟩
    · simp only [hdr, Bool.false_eq_true, if_false, false_and, exists_false, false_or]

/-- RENDER's mask: a pixel is 1 exactly where a drawn character's bit lands on it (R130, R134). -/
theorem renderMask_pixel (rom : GlyphRom) (text : List Byte) (r c : Nat) :
    maskRead (renderMask rom text) r c = true ↔
      r < 7 ∧ c < 128 ∧ ∃ (i : Nat) (b : Byte) (k : Nat),
        text[i]? = some b ∧ isDrawn b = true ∧ k < drawnWidth b ∧
        walkColumn text (startOffset text) i + (k : Int) = c ∧
        glyphBit (glyphOf rom (norm b)) r k = true := by
  have hrows : ∀ n, maskRead ((List.range n).foldl
      (fun m line => walkLine rom line text (startOffset text) m) maskClear) r c = true ↔
      r < n ∧ r < 7 ∧ c < 128 ∧ ∃ (i : Nat) (b : Byte) (k : Nat),
        text[i]? = some b ∧ isDrawn b = true ∧ k < drawnWidth b ∧
        walkColumn text (startOffset text) i + (k : Int) = c ∧
        glyphBit (glyphOf rom (norm b)) r k = true := by
    intro n
    induction n with
    | zero => simp
    | succ n ih =>
      rw [List.range_succ, List.foldl_append, List.foldl_cons, List.foldl_nil, walkLine_pixel, ih]
      constructor
      · rintro (⟨h1, h⟩ | ⟨rfl, h⟩)
        · exact ⟨by omega, h⟩
        · exact ⟨by omega, h⟩
      · rintro ⟨h1, h⟩
        by_cases he : r = n
        · subst he; exact .inr ⟨rfl, h⟩
        · exact .inl ⟨by omega, h⟩
  rw [renderMask, hrows 7]
  constructor
  · rintro ⟨-, h⟩; exact h
  · rintro ⟨h1, h⟩; exact ⟨h1, h1, h⟩

/-- Two masks are equal when every pixel reads the same. -/
theorem mask_ext (m m' : Mask) (h : ∀ r c, r < 7 → c < 128 → maskRead m r c = maskRead m' r c) : m = m' := by
  refine Vector.ext fun r hr => Vector.ext fun c hc => ?_
  have := h r c hr hc
  simpa [maskRead, hr, hc] using this

/-! ### The layout -/

theorem drawnCount_eq (text : List Byte) : drawnCount text = text.countP codeDrawn := by
  rw [drawnCount]; exact List.countP_congr fun b _ => by rw [codeDrawn_eq]

theorem narrowCount_eq (text : List Byte) : narrowCount text = text.countP codeNarrow := by
  rw [narrowCount]
  refine List.countP_congr fun b _ => ?_
  rw [codeNarrow_eq]
  constructor
  · intro h; simp only [Bool.and_eq_true] at h; exact h.2
  · intro h
    have := isDrawn_of_isNarrow b h
    simp only [isDrawn, Bool.and_eq_true] at this
    simp [this.1, h]

/-- K is at most D, and D at most the number of codes (R131). -/
theorem counts_le (text : List Byte) :
    narrowCount text ≤ drawnCount text ∧ drawnCount text ≤ text.length := by
  refine ⟨?_, List.countP_le_length⟩
  rw [narrowCount, drawnCount]
  refine List.countP_mono_left fun b _ h => ?_
  simp only [Bool.and_eq_true] at h
  exact isDrawn_of_isNarrow b h.2

/-- Of at most 14 codes the dividend is never negative, so truncating division is floor division and S
is the plain formula (R125, R131). -/
theorem startOffset_eq (text : List Byte) (h : text.length ≤ 14) :
    startOffset text = textStart text ∧ 17 ≤ startOffset text ∧ startOffset text ≤ 66 := by
  obtain ⟨h1, h2⟩ := counts_le text
  have hw : textWidth text = 7 * (drawnCount text : Int) - 2 - narrowCount text := rfl
  have hdiv : startOffset text = 16 + (96 - textWidth text) / 2 + 1 := by
    rw [startOffset, Int.tdiv_eq_ediv_of_nonneg (by omega)]
  rw [hdiv, textStart, startFrom, ← drawnCount_eq, ← narrowCount_eq, hw]
  omega

theorem walkColumn_eq (text : List Byte) (i : Nat) (h : text.length ≤ 14) :
    walkColumn text (startOffset text) i = glyphColumn text i := by
  have hd : (codeDefined : Byte → Bool) = isDefined := funext codeDefined_eq
  have hn : (codeNarrow : Byte → Bool) = isNarrow := funext codeNarrow_eq
  rw [walkColumn, glyphColumn, (startOffset_eq text h).1, hd, hn]

end Sys2Proof.Machine
end

