-- ==== Sys2Proof/Laws/Step.lean ====
section
/-! SUPPORT. What one step can do: the host's next action, the cases of a step, and the outcomes of a command (10_state.md R20, R29). -/

namespace Sys2Proof.Machine

/-- Only a read of an empty HOUT waits. -/
theorem selectAction_cons (hout : List Byte) (a : HostAction) (rest : List HostAction)
    (h : ¬(a = .readHout ∧ hout = [])) : selectAction hout (a :: rest) = some (a, rest) := by
  simp [selectAction, h]

/-- A read of an empty HOUT waits where it is, and the next action behind it is chosen. -/
theorem selectAction_waiting (rest : List HostAction) :
    selectAction [] (.readHout :: rest) =
      (selectAction [] rest).map fun p => (p.1, .readHout :: p.2) := by
  cases h : selectAction [] rest <;> simp [selectAction, h]

/-- No action is chosen exactly where every pending one is a read of an empty HOUT. -/
theorem selectAction_none (hout : List Byte) (p : List HostAction) :
    selectAction hout p = none ↔ ∀ a ∈ p, a = .readHout ∧ hout = [] := by
  induction p with
  | nil => simp [selectAction]
  | cons a rest ih =>
    by_cases h : a = .readHout ∧ hout = []
    · obtain ⟨rfl, rfl⟩ := h
      rw [selectAction_waiting, Option.map_eq_none_iff, ih]
      simp
    · rw [selectAction_cons _ _ _ h]
      simp only [reduceCtorEq, List.mem_cons, forall_eq_or_imp, false_iff, not_and]
      exact fun h' => absurd h' h

/-- The read of HOUT is chosen only where HOUT holds a character. -/
theorem selectAction_readHout (hout : List Byte) (p left : List HostAction)
    (h : selectAction hout p = some (.readHout, left)) : hout ≠ [] := by
  induction p generalizing left with
  | nil => simp [selectAction] at h
  | cons a rest ih =>
    by_cases hw : a = .readHout ∧ hout = []
    · obtain ⟨rfl, rfl⟩ := hw
      rw [selectAction_waiting, Option.map_eq_some_iff] at h
      obtain ⟨⟨b, l⟩, hb, he⟩ := h
      simp only [Prod.mk.injEq] at he
      exact ih l (he.1 ▸ hb)
    · rw [selectAction_cons _ _ _ hw] at h
      simp only [Option.some.injEq, Prod.mk.injEq] at h
      exact fun he => hw ⟨h.1, he⟩

/-- A chosen action was pending, and what is left was too. -/
theorem selectAction_mem (hout : List Byte) (p left : List HostAction) (a : HostAction)
    (h : selectAction hout p = some (a, left)) : a ∈ p ∧ ∀ b ∈ left, b ∈ p := by
  induction p generalizing left with
  | nil => simp [selectAction] at h
  | cons c rest ih =>
    by_cases hw : c = .readHout ∧ hout = []
    · obtain ⟨rfl, rfl⟩ := hw
      rw [selectAction_waiting, Option.map_eq_some_iff] at h
      obtain ⟨⟨b, l⟩, hb, he⟩ := h
      simp only [Prod.mk.injEq] at he
      obtain ⟨rfl, rfl⟩ := he
      obtain ⟨h1, h2⟩ := ih l hb
      exact ⟨by simp [h1], fun b hb => by
        rcases List.mem_cons.mp hb with rfl | hb
        · simp
        · simp [h2 b hb]⟩
    · rw [selectAction_cons _ _ _ hw] at h
      simp only [Option.some.injEq, Prod.mk.injEq] at h
      obtain ⟨rfl, rfl⟩ := h
      exact ⟨by simp, fun b hb => by simp [hb]⟩

/-! ### The step, action by action -/

theorem step_word_ok (s : State) (w : Word) (left : List HostAction) (i : Instr)
    (h : NextWord s w left) (hd : decode w = .ok i) : step s = exec i (s.withPending left) := by
  unfold NextWord at h; simp only [step, h, hd]

theorem step_word_illegal (s : State) (w : Word) (left : List HostAction) (e : DecodeError)
    (h : NextWord s w left) (hd : decode w = .error e) :
    step s = .next ((s.withPending left).raise .ill) := by
  unfold NextWord at h; simp only [step, h, hd, illegalWord]

theorem step_readRes (s : State) (left : List HostAction)
    (h : selectAction s.hout s.pending = some (.readRes, left)) :
    step s = .next ((s.withPending left).deliver (.res s.res)) := by
  simp only [step, h, readResPort, withPending_res]

theorem step_readStatus (s : State) (left : List HostAction)
    (h : selectAction s.hout s.pending = some (.readStatus, left)) :
    step s = .next ((s.withPending left).deliver (.status (statusRead s.status))) := by
  simp only [step, h, readStatusPort, withPending_status]

theorem step_readHout (s : State) (left : List HostAction) (c : Byte) (cs : List Byte)
    (h : selectAction s.hout s.pending = some (.readHout, left)) (hc : s.hout = c :: cs) :
    step s = .next (State.deliver { s.withPending left with hout := cs } (.hout c)) := by
  unfold step; rw [h]; simp only [readHoutPort, withPending_hout, hc]

theorem step_reset (s : State) (left : List HostAction)
    (h : selectAction s.hout s.pending = some (.reset, left)) :
    step s = .next { State.reset with pending := left, received := s.received } := by
  simp only [step, h, resetBlock, withPending_pending, withPending_received]

theorem step_none (s : State) (h : selectAction s.hout s.pending = none) : step s = waitForHost s := by
  simp only [step, h]

/-- A read of HOUT is chosen only with a character to read, so it always goes on. -/
theorem step_readHout_cases (s : State) (left : List HostAction)
    (h : selectAction s.hout s.pending = some (.readHout, left)) :
    ∃ c cs, s.hout = c :: cs := by
  have := selectAction_readHout _ _ _ h
  cases hc : s.hout with
  | nil => exact absurd hc this
  | cons c cs => exact ⟨c, cs, rfl⟩

/-- Everything a step that goes on can have been. -/
theorem step_cases (s t : State) (h : step s = .next t) :
    (t = s ∧ s.pending = []) ∨
    (∃ w left i, NextWord s w left ∧ decode w = .ok i ∧ exec i (s.withPending left) = .next t) ∨
    (∃ w left e, NextWord s w left ∧ decode w = .error e ∧ t = (s.withPending left).raise .ill) ∨
    (∃ left v, (∀ c, v ≠ .hout c) ∧ t = (s.withPending left).deliver v ∧
      ((selectAction s.hout s.pending = some (.readRes, left) ∧ v = .res s.res) ∨
       (selectAction s.hout s.pending = some (.readStatus, left) ∧ v = .status (statusRead s.status)))) ∨
    (∃ left c cs, selectAction s.hout s.pending = some (.readHout, left) ∧ s.hout = c :: cs ∧
      t = State.deliver { s.withPending left with hout := cs } (.hout c)) ∨
    (∃ left, selectAction s.hout s.pending = some (.reset, left) ∧
      t = { State.reset with pending := left, received := s.received }) := by
  cases hs : selectAction s.hout s.pending with
  | none =>
    rw [step_none s hs, waitForHost] at h
    split at h
    · rename_i hp; exact .inl ⟨by simpa using h.symm, hp⟩
    · simp at h
  | some p =>
    obtain ⟨a, left⟩ := p
    cases a with
    | writeCmd w =>
      cases hd : decode w with
      | ok i =>
        rw [step_word_ok s w left i hs hd] at h
        exact .inr (.inl ⟨w, left, i, hs, hd, h⟩)
      | error e =>
        rw [step_word_illegal s w left e hs hd] at h
        exact .inr (.inr (.inl ⟨w, left, e, hs, hd, by simpa using h.symm⟩))
    | readRes =>
      rw [step_readRes s left hs] at h
      exact .inr (.inr (.inr (.inl ⟨left, _, by simp, by simpa using h.symm, .inl ⟨rfl, rfl⟩⟩)))
    | readStatus =>
      rw [step_readStatus s left hs] at h
      exact .inr (.inr (.inr (.inl ⟨left, _, by simp, by simpa using h.symm, .inr ⟨rfl, rfl⟩⟩)))
    | readHout =>
      obtain ⟨c, cs, hc⟩ := step_readHout_cases s left hs
      rw [step_readHout s left c cs hs hc] at h
      exact .inr (.inr (.inr (.inr (.inl ⟨left, c, cs, rfl, hc, by simpa using h.symm⟩))))
    | reset =>
      rw [step_reset s left hs] at h
      exact .inr (.inr (.inr (.inr (.inr ⟨left, rfl, by simpa using h.symm⟩))))

/-! ### What errors leave -/

theorem sameText_refl (s : State) : SameText s s := ⟨rfl, fun _ _ => rfl⟩

theorem sameMask_refl (s : State) : SameMask s s := fun _ _ _ _ => rfl

theorem sameSrc_refl (s : State) : SameSrc s s := fun _ => rfl

theorem sameHost_refl (s : State) : SameHost s s := ⟨rfl, rfl⟩

/-- `raise Error(RANGE)` sets ERR_RANGE and nothing else (R221). -/
theorem raise_range_errorOnly (s : State) : ErrorOnly 1 s (s.raise .range) :=
  ⟨fun i _ => setError_bit .range s.status i, rfl, sameText_refl s, sameMask_refl s, sameSrc_refl s, rfl⟩

/-- `raise Error(ILL)` sets ERR_ILL and nothing else (R221). -/
theorem raise_ill_errorOnly (s : State) (left : List HostAction) :
    ErrorOnly 0 s ((s.withPending left).raise .ill) :=
  ⟨fun i _ => setError_bit .ill s.status i, rfl, sameText_refl s, sameMask_refl s, sameSrc_refl s, rfl⟩

/-- A rejected word raises Error(ILL) in every state (R222). -/
theorem raisesIll_of_error (w : Word) (e : DecodeError) (h : decode w = .error e) : RaisesIll w :=
  fun s left hn => ⟨_, step_word_illegal s w left e hn h, raise_ill_errorOnly s left, rfl, rfl⟩

/-! ### Outcomes of a command -/

@[simp] theorem whenInRange_true (s : State) (o : Outcome) : whenInRange true s o = o := rfl

@[simp] theorem whenInRange_false (s : State) (o : Outcome) :
    whenInRange false s o = .next (s.raise .range) := rfl

@[simp] theorem onRead_ok {α : Type} (x : α) (k : α → State) : onRead (.ok x) k = .next (k x) := rfl

@[simp] theorem onRead_error {α : Type} (f : Fault) (k : α → State) : onRead (.error f) k = .fault f := rfl

/-- Everything a command that goes on can have done to the state. -/
theorem exec_cases (i : Instr) (s t : State) (h : exec i s = .next t) :
    (i = .txclr ∧ t = s.clearText) ∨
    (∃ ch, i = .txput ch ∧ t = s.pushChar ch) ∨
    (i = .render ∧ t = { s with mask := renderMask Config.glyphRom s.text, res := layoutReport s.text }) ∨
    (∃ v, (∃ row col, i = .mrd row col) ∧ t = s.setRes v) ∨
    (∃ v, (∃ ch row, i = .glu ch row) ∧ t = s.setRes v) ∨
    (∃ v, (∃ addr, i = .srd addr) ∧ t = s.setRes v) ∨
    (∃ addr b, i = .swr addr b ∧ t = s.srcWrite addr b) ∨
    (∃ addr n cs, i = .hxrec addr n ∧ chunkRecord s.src addr.toNat n.toNat = .ok cs ∧ t = s.emit cs) ∨
    (i = .hxeof ∧ t = s.emit eofRecord) ∨
    (∃ len cs, i = .encode len ∧ encodeText s.src len.toNat = .ok cs ∧ t = s.emit cs) ∨
    ((∃ ch row, i = .glu ch row) ∨ (∃ row col, i = .mrd row col) ∨ (∃ addr n, i = .hxrec addr n) ∨
      (∃ len, i = .encode len)) ∧ t = s.raise .range := by
  have onNext : ∀ {α : Type} (r : Except Fault α) (k : α → State),
      onRead r k = .next t → ∃ x, r = .ok x ∧ t = k x := by
    intro α r k h
    cases r with
    | ok x => exact ⟨x, rfl, by simpa using h.symm⟩
    | error f => simp at h
  cases i with
  | txclr => exact .inl ⟨rfl, by simpa [exec, execTxclr] using h.symm⟩
  | txput ch => exact .inr (.inl ⟨ch, rfl, by simpa [exec, execTxput] using h.symm⟩)
  | render => exact .inr (.inr (.inl ⟨rfl, by simpa [exec, execRender] using h.symm⟩))
  | mrd row col =>
    simp only [exec, execMrd] at h
    cases hr : pixelInRange row col <;> simp only [hr, whenInRange_true, whenInRange_false, Host.Outcome.next.injEq] at h
    · simp [← h]
    · exact .inr (.inr (.inr (.inl ⟨_, ⟨row, col, rfl⟩, h.symm⟩)))
  | glu ch row =>
    simp only [exec, execGlu] at h
    cases hr : glyphRowInRange row <;> simp only [hr, whenInRange_true, whenInRange_false, Host.Outcome.next.injEq] at h
    · simp [← h]
    · exact .inr (.inr (.inr (.inr (.inl ⟨_, ⟨ch, row, rfl⟩, h.symm⟩))))
  | swr addr b =>
    refine .inr (.inr (.inr (.inr (.inr (.inr (.inl ⟨addr, b, rfl, by simpa [exec, execSwr] using h.symm⟩))))))
  | srd addr =>
    simp only [exec, execSrd] at h
    obtain ⟨x, -, rfl⟩ := onNext _ _ h
    exact .inr (.inr (.inr (.inr (.inr (.inl ⟨_, ⟨addr, rfl⟩, rfl⟩)))))
  | hxrec addr n =>
    simp only [exec, execHxrec] at h
    cases hr : chunkInRange addr n <;> simp only [hr, whenInRange_true, whenInRange_false, Host.Outcome.next.injEq] at h
    · simp [← h]
    · obtain ⟨x, hx, rfl⟩ := onNext _ _ h
      exact .inr (.inr (.inr (.inr (.inr (.inr (.inr (.inl ⟨addr, n, x, rfl, hx, rfl⟩)))))))
  | hxeof =>
    exact .inr (.inr (.inr (.inr (.inr (.inr (.inr (.inr (.inl ⟨rfl, by simpa [exec, execHxeof] using h.symm⟩))))))))
  | encode len =>
    simp only [exec, execEncode] at h
    cases hr : lenInRange len <;> simp only [hr, whenInRange_true, whenInRange_false, Host.Outcome.next.injEq] at h
    · simp [← h]
    · obtain ⟨x, hx, rfl⟩ := onNext _ _ h
      exact .inr (.inr (.inr (.inr (.inr (.inr (.inr (.inr (.inr (.inl ⟨len, x, rfl, hx, rfl⟩)))))))))

end Sys2Proof.Machine
end

