-- ==== Sys2Proof/Tests/Slice0.lean ====
section
/-! SUPPORT. Small tests, each with its expected value from spec/ (file and section in its comment), and a witness for every statement that has hypotheses. -/

namespace Sys2Proof.Tests

open Sys2Proof.Machine

/-! ### Helpers -/

/-- A text buffer of these codes, right after reset. -/
def withText (codes : List Byte) : State :=
  codes.foldl (fun s c => s.pushChar c) State.reset

/-- Source bytes from an address up, right after reset. -/
def withBytes (a : Nat) (bytes : List Byte) : State :=
  { State.reset with
    src := ((List.range bytes.length).zip bytes).foldl (fun m p => memWrite m (a + p.1) p.2) [] }

/-- The reset state with host actions pending. -/
def withActions (p : List HostAction) : State := { State.reset with pending := p }

/-- A field of the next state, where there is one. -/
def ofNext {α : Type} (f : State → α) : Outcome → Option α
  | .next t => some (f t)
  | .fault _ => none
  | .refused _ => none

/-- The fault, where there is one. -/
def faultOf : Outcome → Option Fault
  | .next _ => none
  | .fault f => some f
  | .refused _ => none

/-- The codes of an ASCII text. -/
def codes (s : List Char) : List Byte := s.map fun c => BitVec.ofNat 8 c.toNat

/-- The test font TF1: every bit of every non-space glyph is 1 (95_test_vectors.md). -/
def tf1 : GlyphRom := fun _ => Vector.replicate 7 (Vector.replicate 5 true)

/-- The test font TFR: column 4 alone (95_test_vectors.md). -/
def tfr : GlyphRom := fun _ => Vector.replicate 7 ((Vector.replicate 5 false).set 4 true)

/-! ### The assembler's refusals: an ill-formed line for each check of WellFormed -/

-- 30_encoding.md R78: "MRD 256, 0 or HXREC 0, 32".
theorem test_refuses_wide_row : Asm.wellFormed (.mrd (.num 256) (.num 0)) = false := by decide
theorem test_refuses_wide_col : Asm.wellFormed (.mrd (.num 0) (.num 256)) = false := by decide
theorem test_refuses_wide_count : Asm.wellFormed (.hxrec (.num 0) (.num 32)) = false := by decide
theorem test_refuses_wide_char : Asm.wellFormed (.txput (.num 256)) = false := by decide
theorem test_refuses_wide_glyph_char : Asm.wellFormed (.glu (.num 256) (.num 0)) = false := by decide
theorem test_refuses_wide_glyph_row : Asm.wellFormed (.glu (.chr 'A') (.num 256)) = false := by decide
theorem test_refuses_wide_addr : Asm.wellFormed (.srd (.num 0x10000)) = false := by decide
theorem test_refuses_wide_write_addr : Asm.wellFormed (.swr (.num 0x10000) (.num 0)) = false := by decide
theorem test_refuses_wide_byte : Asm.wellFormed (.swr (.num 0) (.num 256)) = false := by decide
theorem test_refuses_wide_record_addr : Asm.wellFormed (.hxrec (.num 0x10000) (.num 1)) = false := by decide
theorem test_refuses_wide_len : Asm.wellFormed (.encode (.num 0x20000)) = false := by decide
theorem test_refuses_non_ascii : Asm.wellFormed (.txput (.chr (Char.ofNat 0xE9))) = false := by decide
theorem test_refuses_non_ascii_text : Asm.wellFormed (.txstr ['A', Char.ofNat 0xE9]) = false := by decide
-- R79: "The assembler refuses it when addr + m > 0x10000".
theorem test_refuses_long_loadbuf : Asm.wellFormed (.loadbuf (.num 0xFFFF) [.num 1, .num 2]) = false := by decide
theorem test_refuses_wide_loadbuf_byte : Asm.wellFormed (.loadbuf (.num 0) [.num 256]) = false := by decide
theorem test_refuses_wide_loadbuf_addr : Asm.wellFormed (.loadbuf (.num 0x10000) []) = false := by decide
theorem test_refuses_long_fill : Asm.wellFormed (.fill (.num 0xFFFF) (.num 2) (.num 0)) = false := by decide
theorem test_refuses_wide_fill_value : Asm.wellFormed (.fill (.num 0) (.num 1) (.num 256)) = false := by decide
theorem test_refuses_wide_fill_addr : Asm.wellFormed (.fill (.num 0x10000) (.num 0) (.num 0)) = false := by decide
theorem test_refuses_non_ascii_count :
    Asm.wellFormed (.fill (.num 0) (.chr (Char.ofNat 0xE9)) (.num 0)) = false := by decide
-- R78: a value that fits its field is not refused though it is out of the command's range.
theorem test_accepts_out_of_range : Asm.wellFormed (.mrd (.num 7) (.num 255)) = true := by decide
-- 30_encoding.md section 5, worked encodings, from the text of the line.
theorem test_assembles_glu :
    assembleText [['G', 'L', 'U', ' ', '\'', 'A', '\'', ',', ' ', '6']] = some [0x05000641#32] := by decide
theorem test_assembles_hxrec :
    assembleText [['H', 'X', 'R', 'E', 'C', ' ', '0', 'x', '0', '0', '1', '0', ',', ' ', '1', '6']] =
      some [0x12001010#32] := by decide
theorem test_assembles_txstr :
    assembleText [['T', 'X', 'S', 'T', 'R', ' ', Char.ofNat 0x22, 'A', '1', Char.ofNat 0x22], ['R', 'E', 'N', 'D', 'E', 'R']] =
      some [0x01000000#32, 0x02000041#32, 0x02000031#32, 0x03000000#32] := by decide
theorem test_assembler_refuses_text : assembleText [['M', 'R', 'D', ' ', '2', '5', '6', ',', ' ', '0']] = none := by decide

/-! ### Decoding: words written out from the fields of 30_encoding.md R72 and R74 -/

theorem test_decode_txclr : decode 0b00000001_00000000_00000000_00000000#32 = .ok .txclr := by decide
theorem test_decode_txput : decode 0b00000010_00000000_00000000_01101001#32 = .ok (.txput 0x69#8) := by decide
theorem test_decode_render : decode 0b00000011_00000000_00000000_00000000#32 = .ok .render := by decide
theorem test_decode_mrd : decode 0b00000100_00000000_00000011_01111111#32 = .ok (.mrd 3#8 127#8) := by decide
theorem test_decode_glu : decode 0b00000101_00000000_00000110_01000001#32 = .ok (.glu 0x41#8 6#8) := by decide
theorem test_decode_swr :
    decode 0b00010000_00010010_00110100_10101011#32 = .ok (.swr 0x1234#16 0xAB#8) := by decide
theorem test_decode_srd : decode 0b00010001_00011111_11111111_00000000#32 = .ok (.srd 0x1FFF#16) := by decide
theorem test_decode_hxrec :
    decode 0b00010010_00000000_00010000_00010000#32 = .ok (.hxrec 0x0010#16 16#5) := by decide
theorem test_decode_hxeof : decode 0b00010011_00000000_00000000_00000000#32 = .ok .hxeof := by decide
theorem test_decode_encode : decode 0b00010100_00000001_00000000_00000000#32 = .ok (.encode 0x10000#17) := by decide
-- 95_test_vectors.md section 2.8.
theorem test_decode_unassigned :
    [0x00000000#32, 0x06000000#32, 0x0F000000#32, 0x15000000#32, 0xFF000000#32].map decode =
      List.replicate 5 (.error .unassignedOpcode) := by decide
theorem test_decode_reserved :
    [0x01000001#32, 0x02000141#32, 0x03000001#32, 0x04010700#32, 0x05010041#32, 0x11000001#32, 0x12000020#32,
      0x13000100#32, 0x14020000#32].map decode = List.replicate 9 (.error .reservedBits) := by decide
theorem test_table_word_of_reset_step :
    decodeTableWord 32 0x03000000 = some .render ∧
      (ofNext State.res (step (State.reset.withFetchWord 32 0x03000000))) = some 0x0000FE42#32 := by decide

/-! ### Commands, one step each -/

-- 95_test_vectors.md section 2.2.
theorem test_txclr :
    ofNext (fun t => (t.tlen, t.status)) (exec .txclr { State.reset with tlen := 14, status := 0x7 }) =
      some (0#4, 0x3#32) := by decide
theorem test_txput_takes_last_place :
    ofNext (fun t => (t.tlen, t.tbuf[13], t.status)) (exec (.txput 0x7E#8) { State.reset with tlen := 13 }) =
      some (14#4, 0x7E#8, 0#32) := by decide
theorem test_txput_drops :
    ofNext (fun t => (t.tlen, t.status)) (exec (.txput 0x5A#8) { State.reset with tlen := 14, status := 1 }) =
      some (14#4, 0x5#32) := by decide
-- 95_test_vectors.md section 2.3: the report of "a1i", and the columns of "A1A" under TF1 and TFR.
theorem test_render_report :
    ofNext State.res (exec .render (withText (codes ['a', '1', 'i']))) = some 0x02031138#32 := by decide
theorem test_render_columns :
    [55, 56, 60, 61, 62, 65, 66, 68, 69, 73, 74].map (maskRead (renderMask tf1 (codes ['A', '1', 'A'])) 6) =
      [false, true, true, false, true, true, false, false, true, true, false] := by decide
theorem test_render_narrow_column :
    [60, 65, 66, 73].map (maskRead (renderMask tfr (codes ['A', '1', 'A'])) 0) = [true, false, false, true] := by
  decide
-- 95_test_vectors.md section 2.4.
theorem test_mrd_reads :
    ofNext State.res (exec (.mrd 6#8 127#8) { State.reset with mask := maskSet maskClear 6 127 }) =
      some 1#32 := by decide
theorem test_mrd_out_of_range :
    ofNext (fun t => (t.res, t.status)) (exec (.mrd 0#8 128#8) { State.reset with res := 5 }) =
      some (5#32, 0x2#32) := by decide
-- 95_test_vectors.md section 2.1.
theorem test_glu_space : ofNext State.res (exec (.glu 0x20#8 0#8) State.reset) = some 0x500#32 := by decide
theorem test_glu_under_test_fonts :
    [gluReport tf1 0x61#8 0, gluReport tf1 0x31#8 6, gluReport tfr 0x69#8 2, gluReport tf1 0xC1#8 0] =
      [0x11F#32, 0x31F#32, 0x310#32, 0#32] := by decide
-- 95_test_vectors.md section 2.5.
theorem test_swr_last_write_wins :
    ofNext State.src (exec (.swr 0xFFFF#16 2#8) (withBytes 0xFFFE [7, 1])) =
      some [(0xFFFE, 7#8), (0xFFFF, 2#8)] := by decide
theorem test_srd_reads : ofNext State.res (exec (.srd 0x1234#16) (withBytes 0x1234 [0xAB])) = some 0xAB#32 := by decide
theorem test_srd_unwritten : faultOf (exec (.srd 0x4000#16) State.reset) = some (.srcUnwritten 0x4000) := by decide
-- 95_test_vectors.md section 2.6.
theorem test_hxrec_record :
    ofNext State.hout (exec (.hxrec 0x1FFE#16 3#5) (withBytes 0x1FFE [0x12, 0x34, 0x56])) =
      some (codes ":031FFE0012345644\n".toList) := by decide
theorem test_hxrec_runs_past_the_end :
    ofNext (fun t => (t.hout, t.status)) (exec (.hxrec 0xFFFF#16 2#5) State.reset) = some ([], 0x2#32) := by decide
theorem test_hxeof :
    ofNext State.hout (exec .hxeof { State.reset with hout := [0x41] }) =
      some (codes "A:00000001FF\n".toList) := by decide
-- 95_test_vectors.md section 2.7: 17 ascending bytes, and the same with the last one unwritten.
theorem test_encode_partial_chunk :
    ofNext State.hout (exec (.encode 17#17) (withBytes 0 ((List.range 17).map (BitVec.ofNat 8)))) =
      some (codes ":10000000000102030405060708090A0B0C0D0E0F78\n:0100100010DF\n:00000001FF\n".toList) := by
  decide
theorem test_encode_unwritten :
    faultOf (exec (.encode 17#17) (withBytes 0 (List.replicate 16 0))) = some (.srcUnwritten 0x0010) := by decide
-- 70_reset_and_hazards.md R250.
theorem test_reset_memory_canonical : Memory.wf State.reset.src := by decide

/-! ### Witnesses: states and operands that meet the hypotheses of the statements, boundary values included -/

/-- A host writing one word. -/
def writes (w : Word) : State := withActions [.writeCmd w, .readRes]

-- EncodeOfDecodeIsTheWord, AssembledWordsDecodeToTheirCommands
theorem witness_legal_word : decode 0x14010000#32 = .ok (.encode 0x10000#17) := by decide
theorem witness_assembled : assemble (.encode (.num 0x1FFFF)) = some [0x1401FFFF#32] := by decide
-- WordsOutsideTheTableAreIllegal, RaisesIll, AtMostOneErrorBitAStep
theorem witness_illegal_words :
    opcodeRows.all (fun row => 0x12000020#32 &&& row.1 != row.2) = true ∧
      opcodeRows.all (fun row => 0x06000000#32 &&& row.1 != row.2) = true ∧
      opField 0x06000000#32 = 0x06#8 ∧ opField 0x0F000000#32 = 0x0F#8 ∧ opField 0x15000000#32 = 0x15#8 := by decide
theorem witness_next_illegal_word : NextWord (writes 0x12000020#32) 0x12000020#32 [.readRes] := rfl
-- the reserved-bit clause of each command
theorem witness_reserved_bits :
    (0x01000001#32).extractLsb' 0 24 ≠ 0#24 ∧ (0x02000141#32).extractLsb' 8 16 ≠ 0#16 ∧
    (0x03800000#32).extractLsb' 0 24 ≠ 0#24 ∧ (0x04010700#32).extractLsb' 16 8 ≠ 0#8 ∧
    (0x05010041#32).extractLsb' 16 8 ≠ 0#8 ∧ (0x11000080#32).extractLsb' 0 8 ≠ 0#8 ∧
    (0x12000020#32).extractLsb' 5 3 ≠ 0#3 ∧ (0x13000100#32).extractLsb' 0 24 ≠ 0#24 ∧
    (0x14020000#32).extractLsb' 17 7 ≠ 0#7 := by decide
-- StepRunsTheDecodedCommand, and the machine-wide statements about a step that runs a command
theorem witness_next_legal_word :
    NextWord (writes 0x13000000#32) 0x13000000#32 [.readRes] ∧ decode 0x13000000#32 = .ok .hxeof :=
  ⟨rfl, by decide⟩
-- TxputAppendsOrDrops: both clauses at their boundaries
theorem witness_txput_room : ({ State.reset with tlen := 13 } : State).tlen.toNat < 14 := by decide
theorem witness_txput_full : 14 ≤ ({ State.reset with tlen := 14 } : State).tlen.toNat := by decide
-- GluReportsOneGlyphRow, MrdReadsOnePixel: each clause at its boundary
theorem witness_rows : (6#8).toNat ≤ 6 ∧ 6 < (7#8).toNat ∧ (127#8).toNat ≤ 127 ∧ 127 < (128#8).toNat := by decide
-- OnlyTheNamedGlyphsAreRead: two fonts that differ, at a code no lookup reaches
theorem witness_fonts :
    ∃ rom₁ rom₂ : GlyphRom, rom₁ ≠ rom₂ ∧ ∀ (n : Byte) (r c : Nat),
      supportedCodes.contains n.toNat = true → glyphBit (rom₁ n) r c = glyphBit (rom₂ n) r c := by
  refine ⟨tf1, fun n => if n = 0#8 then blankGlyph else tf1 n, fun h => ?_, fun n r c h => ?_⟩
  · have := congrArg (fun f : GlyphRom => glyphBit (f 0#8) 0 0) h
    exact absurd this (by decide)
  · by_cases hn : n = 0#8
    · subst hn; exact absurd h (by decide)
    · simp [hn]
-- UndefinedCodesAreSkipped
theorem witness_undefined : codeDefined 0x3F#8 = false ∧ codeDefined 0x5B#8 = false := by decide
-- RenderDrawsTheUnionOfItsGlyphs, RenderStaysInItsRanges: a pixel that is drawn, at the last column
theorem witness_glyph_lands : GlyphLands tf1 (List.replicate 9 0x20#8 ++ [0x41#8]) 6 127 :=
  ⟨9, 0x41#8, 2, by decide, by decide, by decide, by decide, by decide⟩
theorem witness_last_column :
    isDrawn 0x41#8 = true ∧ 4 < drawnWidth 0x41#8 ∧ (List.replicate 13 0x20#8 ++ [0x41#8]).length ≤ 14 := by decide
theorem witness_first_column :
    isDrawn 0x31#8 = true ∧ 0 < drawnWidth 0x31#8 ∧ (0x31#8 :: List.replicate 13 0x41#8).length ≤ 14 := by decide
theorem witness_drawn_pixel :
    maskRead (drawGlyphRow (tf1 0x41#8) 6 16 5 maskClear) 6 20 ≠ maskRead maskClear 6 20 := by decide
-- RenderDependsOnTheTextAlone: different states with one text, and commands between two RENDERs
theorem witness_same_text :
    (withText [0x41#8]).tlen = ({ withText [0x41#8] with res := 9, hout := [1] } : State).tlen := by decide
theorem witness_render_between :
    ∃ t u v, exec .render (withText [0x31#8]) = .next t ∧
      runCommands [.hxeof, .mrd 0#8 0#8, .swr 0#16 1#8] t = .next u ∧ exec .render u = .next v :=
  ⟨_, _, _, rfl, rfl, rfl⟩
-- SrdReadsOneByte, CommandsStopOnlyOnUnwrittenBytes: a byte written, and one not, at the last address
theorem witness_written_byte : memRead (withBytes 0xFFFF [5#8]).src 0xFFFF = some 5#8 := by decide
theorem witness_unwritten_byte : memRead (withBytes 0xFFFF [5#8]).src 0xFFFE = none := by decide
-- SrdReturnsTheMostRecentWrite
theorem witness_write_then_other :
    ∃ t u, exec (.swr 7#16 1#8) State.reset = .next t ∧ runCommands [.swr 8#16 2#8, .hxeof] t = .next u :=
  ⟨_, _, rfl, rfl⟩
-- HxrecAppendsOneRecord: the three ways out of range, and the last byte in range
theorem witness_hxrec_ranges :
    OutOfRange (.hxrec 0#16 0#5) ∧ OutOfRange (.hxrec 0#16 17#5) ∧ OutOfRange (.hxrec 0xFFFF#16 2#5) ∧
      ¬OutOfRange (.hxrec 0xFFFF#16 1#5) ∧ ¬OutOfRange (.hxrec 0xFFF0#16 16#5) := by
  simp only [OutOfRange]; decide
theorem witness_written_chunk : Written (withBytes 0xFFFF [5#8]).src 0xFFFF 1 := by
  intro j hj
  have : j = 0 := by omega
  subst this; decide
theorem witness_unwritten_chunk : FirstUnwritten (withBytes 0 [5#8]).src 0 2 1 := by
  refine ⟨by decide, by decide, by decide, fun y _ hy => ?_⟩
  have : y = 0 := by omega
  subst this; decide
-- EncodeAppendsTheWholeFile and the statements about ENCODE: both ends of the range
theorem witness_encode_ranges :
    OutOfRange (.encode 0x10001#17) ∧ ¬OutOfRange (.encode 0x10000#17) ∧ Written State.reset.src 0 0 := by
  refine ⟨by simp only [OutOfRange]; decide, by simp only [OutOfRange]; decide, fun j hj => by omega⟩
theorem witness_written_buffer : Written (withBytes 0 [1#8, 2#8]).src 0 2 := by
  intro j hj
  have : j = 0 ∨ j = 1 := by omega
  rcases this with rfl | rfl <;> decide
-- LoadingThenEncodingGivesTheBuffersFile
theorem witness_buffer_length : ([1, 2, 3] : List Byte).length ≤ 0x10000 := by decide
-- EncoderReadsOnlyItsSourceBytes: states that differ, and a record that is emitted
theorem witness_encoder_determinism :
    ∃ t, exec (.hxrec 0#16 1#5) (withBytes 0 [1#8]) = .next t ∧
      memRead (withBytes 0 [1#8]).src 0 = memRead (withBytes 0 [1#8, 2#8]).src 0 := ⟨_, rfl, by decide⟩
-- RangeErrorsAreExactlyTheListed, StatusBitsHaveTheirOwnCauses, AtMostOneErrorBitAStep
theorem witness_range_error :
    ofNext (fun t => (t.errRange, t.errIll)) (step (writes 0x05000741#32)) = some (true, false) ∧
      (writes 0x05000741#32).errRange = false := by decide
theorem witness_ill_error :
    ofNext (fun t => (t.errIll, t.errRange)) (step (writes 0x04010700#32)) = some (true, false) := by decide
theorem witness_trunc_set :
    ofNext State.trunc (step { writes 0x0200005A#32 with tlen := 14 }) = some true := by decide
-- ErrorBitsAreSticky: set bits, and a step that is neither a reset nor a TXCLR
theorem witness_sticky :
    ofNext State.status (step { writes 0x02000041#32 with status := 7, tlen := 14 }) = some 7#32 := by decide
theorem witness_no_reset : ¬StepsReset (writes 0x13000000#32) := by
  rintro ⟨left, h⟩
  exact absurd (show (some (HostAction.writeCmd 0x13000000#32, [HostAction.readRes]) = some (.reset, left)) from h)
    (by simp)
-- EveryStepKeepsTheInvariant: a state beside reset that meets the invariant
theorem witness_invariant : Inv (withActions [.writeCmd 0x13000000#32]) where
  tlen_le := by decide
  status_reserved := fun i _ => by simp [withActions, State.reset]
  trunc_full := by decide
  mem_wf := by decide
  keep_out := fun r c _ => by
    change maskRead (Vector.replicate 7 (Vector.replicate 128 false)) r c = false
    unfold maskRead; split <;> simp
  hout_chars := by decide
-- ResetGivesTheResetValues: also behind a waiting read
theorem witness_reset_action :
    selectAction [] [.readHout, .reset, .readRes] = some (.reset, [.readHout, .readRes]) := by decide
-- OnlyRenderAndResetChangeTheMask and its neighbours: steps that do change what they may change
theorem witness_res_changes : ofNext State.res (step (writes 0x05000020#32)) = some 0x500#32 := by decide
theorem witness_text_changes : ofNext State.tlen (step (writes 0x02000041#32)) = some 1#4 := by decide
theorem witness_source_changes :
    ofNext (fun t => memRead t.src 0x1234) (step (writes 0x101234AB#32)) = some (some 0xAB#8) := by decide
theorem witness_hout_read :
    ofNext State.hout (step { withActions [.readHout] with hout := [0x3A#8, 0x30#8] }) = some [0x30#8] := by decide
-- PortReadsReturnAndKeep: each of the three reads
theorem witness_port_reads :
    ofNext State.received (step { withActions [.readRes] with res := 9 }) = some [.res 9#32] ∧
    ofNext State.received (step { withActions [.readStatus] with status := 7 }) = some [.status 7#32] ∧
    ofNext State.received (step { withActions [.readHout] with hout := [0x3A#8] }) = some [.hout 0x3A#8] := by decide
-- ReadsOfAnEmptyHoutWait: a stuck read, one that a command overtakes, and an idle block
theorem witness_stuck_read : faultOf (step (withActions [.readHout])) = some .houtReadStuck := by decide
theorem witness_waiting_read :
    ofNext (fun t => (t.hout.length, t.pending)) (step (withActions [.readHout, .writeCmd 0x13000000#32])) =
      some (12, [.readHout]) := by decide
theorem witness_idle : ofNext State.pending (step State.reset) = some [] := by decide
-- HostReadsHoutInOrder, CommandsKeepTheHostsOrder: a run of three steps with no reset in it
theorem witness_stream :
    ∃ t, Host.Core.run Sys2Proof.core 3 (withActions [.readHout, .writeCmd 0x13000000#32, .readHout]) = .next t :=
  ⟨_, rfl⟩
theorem witness_no_reset_pending :
    HostAction.reset ∉ (withActions [.readHout, .writeCmd 0x13000000#32, .readHout]).pending := by decide
-- PseudoInstructionsExpandAsListed
theorem witness_ascii : ∀ c ∈ ['A', ' ', '~'], c.toNat < 128 := by simp
theorem witness_loadbuf_bounds :
    (0xFFFF < 0x10000 ∧ 0xFFFF + [1#8].length ≤ 0x10000) ∧ ¬(0xFFFF + [1#8, 2#8].length ≤ 0x10000) := by decide

end Sys2Proof.Tests
end

/-! PROOFS. Encoding: a row of the opcode table as the command format it stands for, and the words outside the table (30_encoding.md R71 to R75). -/

namespace Sys2Proof.Machine

/-! ### Command formats -/

/-- The fixed part of a command word: the opcode in bits 31:24, and a slice of `width` reserved bits from
bit `lo` up that must be zero (R71, R72). -/
structure WordFormat where
  op : Byte
  lo : Nat
  width : Nat
deriving DecidableEq

namespace WordFormat

/-- The word has the format's opcode, and its reserved bits are zero. -/
def Fits (f : WordFormat) (w : Word) : Prop := opField w = f.op ∧ w.extractLsb' f.lo f.width = 0

/-- The bits a format fixes: the opcode's and the reserved ones. -/
def mask (f : WordFormat) : Word := 0xFF000000#32 ||| (BitVec.allOnes f.width).setWidth 32 <<< f.lo

/-- The value of those bits. -/
def pattern (f : WordFormat) : Word := f.op.setWidth 32 <<< 24

theorem opMask_bit (i : Nat) (hi : i < 32) : (0xFF000000#32).getLsbD i = decide (24 ≤ i) := by
  interval_cases i <;> rfl

theorem mask_bit (f : WordFormat) (i : Nat) (hi : i < 32) :
    f.mask.getLsbD i = (decide (24 ≤ i) || decide (f.lo ≤ i ∧ i < f.lo + f.width)) := by
  simp only [mask, BitVec.getLsbD_or, opMask_bit i hi, BitVec.getLsbD_shiftLeft, BitVec.getLsbD_setWidth,
    BitVec.getLsbD_allOnes]
  grind

theorem pattern_bit (f : WordFormat) (i : Nat) (hi : i < 32) :
    f.pattern.getLsbD i = (decide (24 ≤ i) && f.op.getLsbD (i - 24)) := by
  simp only [pattern, BitVec.getLsbD_shiftLeft, BitVec.getLsbD_setWidth]
  grind

/-- Fitting a format, bit by bit. -/
theorem fits_iff_bits (f : WordFormat) (w : Word) :
    f.Fits w ↔ (∀ i, i < 8 → w.getLsbD (24 + i) = f.op.getLsbD i) ∧
      ∀ i, i < f.width → w.getLsbD (f.lo + i) = false := by
  refine and_congr ⟨fun h i hi => ?_, fun h => ?_⟩ ⟨fun h i hi => ?_, fun h => ?_⟩
  · rw [← h, opField, BitVec.getLsbD_extractLsb', decide_eq_true hi, Bool.true_and]
  · refine BitVec.eq_of_getLsbD_eq fun i hi => ?_
    rw [opField, BitVec.getLsbD_extractLsb', decide_eq_true hi, Bool.true_and, h i hi]
  · simpa [hi] using congrArg (BitVec.getLsbD · i) h
  · refine BitVec.eq_of_getLsbD_eq fun i hi => ?_
    simp [hi, h i hi]

/-- Matching a row of the table, mask and match, is fitting its format; the reserved bits stand below
the opcode. -/
theorem and_mask_eq_pattern_iff (f : WordFormat) (hf : f.lo + f.width ≤ 24) (w : Word) :
    w &&& f.mask = f.pattern ↔ f.Fits w := by
  rw [fits_iff_bits]
  constructor
  · intro h
    have hbit (i : Nat) (hi : i < 32) :
        (w.getLsbD i && (decide (24 ≤ i) || decide (f.lo ≤ i ∧ i < f.lo + f.width))) =
          (decide (24 ≤ i) && f.op.getLsbD (i - 24)) := by
      rw [← mask_bit f i hi, ← pattern_bit f i hi, ← BitVec.getLsbD_and, h]
    refine ⟨fun i hi => ?_, fun i hi => ?_⟩
    · simpa using hbit (24 + i) (by omega)
    · simpa [hi, show ¬24 ≤ f.lo + i by omega] using hbit (f.lo + i) (by omega)
  · rintro ⟨hop, hzero⟩
    refine BitVec.eq_of_getLsbD_eq fun i hi => ?_
    rw [BitVec.getLsbD_and, mask_bit f i hi, pattern_bit f i hi]
    by_cases h24 : 24 ≤ i
    · have := hop (i - 24) (by omega)
      rw [Nat.add_sub_cancel' h24] at this
      simp [h24, this]
    · by_cases hres : f.lo ≤ i ∧ i < f.lo + f.width
      · have := hzero (i - f.lo) (by omega)
        rw [Nat.add_sub_cancel' hres.1] at this
        simp [h24, this]
      · simp [h24, hres]

end WordFormat

/-! ### The opcode table -/

/-- The format of each row of the opcode table; SWR reserves no bit (R72, R74). -/
def wordFormats : List WordFormat :=
  [⟨0x01#8, 0, 24⟩, ⟨0x02#8, 8, 16⟩, ⟨0x03#8, 0, 24⟩, ⟨0x04#8, 16, 8⟩, ⟨0x05#8, 16, 8⟩,
   ⟨0x10#8, 0, 0⟩, ⟨0x11#8, 0, 8⟩, ⟨0x12#8, 5, 3⟩, ⟨0x13#8, 0, 24⟩, ⟨0x14#8, 17, 7⟩]

theorem opcodeRows_eq_map : opcodeRows = wordFormats.map fun f => (f.mask, f.pattern) := by decide

theorem wordFormats_reserved_below_op : ∀ f ∈ wordFormats, f.lo + f.width ≤ 24 := by decide

/-- The opcodes of the table are 0x01 to 0x05 and 0x10 to 0x14 (R74). -/
theorem wordFormats_op : ∀ f ∈ wordFormats,
    (0x01 ≤ f.op.toNat ∧ f.op.toNat ≤ 0x05) ∨ (0x10 ≤ f.op.toNat ∧ f.op.toNat ≤ 0x14) := by decide

theorem matches_row_iff_fits (w : Word) :
    (∃ row ∈ opcodeRows, w &&& row.1 = row.2) ↔ ∃ f ∈ wordFormats, f.Fits w := by
  simp only [opcodeRows_eq_map, List.mem_map, exists_exists_and_eq_and]
  exact exists_congr fun f => and_congr_right fun hf =>
    f.and_mask_eq_pattern_iff (wordFormats_reserved_below_op f hf) w

/-! ### What the decoder accepts -/

theorem fits_of_decode_ok (w : Word) (i : Instr) (h : decode w = .ok i) : ∃ f ∈ wordFormats, f.Fits w := by
  rcases decode_ok_cases w i h with ⟨ho, hr, -⟩ | ⟨ho, hr, -⟩ | ⟨ho, hr, -⟩ | ⟨ho, hr, -⟩ | ⟨ho, hr, -⟩ |
    ⟨ho, -⟩ | ⟨ho, hr, -⟩ | ⟨ho, hr, -⟩ | ⟨ho, hr, -⟩ | ⟨ho, hr, -⟩
  · exact ⟨⟨0x01#8, 0, 24⟩, by decide, ho, hr⟩
  · exact ⟨⟨0x02#8, 8, 16⟩, by decide, ho, hr⟩
  · exact ⟨⟨0x03#8, 0, 24⟩, by decide, ho, hr⟩
  · exact ⟨⟨0x04#8, 16, 8⟩, by decide, ho, hr⟩
  · exact ⟨⟨0x05#8, 16, 8⟩, by decide, ho, hr⟩
  · exact ⟨⟨0x10#8, 0, 0⟩, by decide, ho, BitVec.of_length_zero⟩
  · exact ⟨⟨0x11#8, 0, 8⟩, by decide, ho, hr⟩
  · exact ⟨⟨0x12#8, 5, 3⟩, by decide, ho, hr⟩
  · exact ⟨⟨0x13#8, 0, 24⟩, by decide, ho, hr⟩
  · exact ⟨⟨0x14#8, 17, 7⟩, by decide, ho, hr⟩

theorem decode_ok_of_fits (w : Word) (f : WordFormat) (hf : f ∈ wordFormats) (h : f.Fits w) :
    ∃ i, decode w = .ok i := by
  obtain ⟨ho, hr⟩ := h
  simp only [wordFormats, List.mem_cons, List.not_mem_nil, or_false] at hf
  rcases hf with rfl | rfl | rfl | rfl | rfl | rfl | rfl | rfl | rfl | rfl
  · exact ⟨_, (decode_txclr_iff w).mpr ⟨ho, hr⟩⟩
  · exact ⟨_, (decode_txput_iff w _).mpr ⟨ho, hr, rfl⟩⟩
  · exact ⟨_, (decode_render_iff w).mpr ⟨ho, hr⟩⟩
  · exact ⟨_, (decode_mrd_iff w _ _).mpr ⟨ho, hr, rfl, rfl⟩⟩
  · exact ⟨_, (decode_glu_iff w _ _).mpr ⟨ho, hr, rfl, rfl⟩⟩
  · exact ⟨_, (decode_swr_iff w _ _).mpr ⟨ho, rfl, rfl⟩⟩
  · exact ⟨_, (decode_srd_iff w _).mpr ⟨ho, hr, rfl⟩⟩
  · exact ⟨_, (decode_hxrec_iff w _ _).mpr ⟨ho, hr, rfl, rfl⟩⟩
  · exact ⟨_, (decode_hxeof_iff w).mpr ⟨ho, hr⟩⟩
  · exact ⟨_, (decode_encode_iff w _).mpr ⟨ho, hr, rfl⟩⟩

theorem decode_ok_iff_fits (w : Word) : (∃ i, decode w = .ok i) ↔ ∃ f ∈ wordFormats, f.Fits w :=
  ⟨fun ⟨i, h⟩ => fits_of_decode_ok w i h, fun ⟨f, hf, h⟩ => decode_ok_of_fits w f hf h⟩

/-- A word that fits no format raises Error(ILL) and has no other effect (R75). -/
theorem raisesIll_of_not_fits (w : Word) (h : ¬∃ f ∈ wordFormats, f.Fits w) : RaisesIll w := by
  cases hd : decode w with
  | ok i => exact absurd (fits_of_decode_ok w i hd) h
  | error e => exact raisesIll_of_error w e hd

/-- Settles O3: a row of the table is a format, and the decoder accepts the words that fit one. -/
theorem wordsOutsideTheTableAreIllegal : Obligations.WordsOutsideTheTableAreIllegal := by
  unfold Obligations.WordsOutsideTheTableAreIllegal
  refine ⟨fun w => ?_, fun w hrows => ?_, fun w hop => ?_⟩
  · rw [matches_row_iff_fits, decode_ok_iff_fits]
  · refine raisesIll_of_not_fits w ?_
    rw [← matches_row_iff_fits]
    rintro ⟨row, hrow, hmatch⟩
    exact hrows row hrow hmatch
  · refine raisesIll_of_not_fits w ?_
    rintro ⟨f, hf, ho, -⟩
    have hrange := wordFormats_op f hf
    rw [← ho, opField] at hrange
    rcases hop with h0 | h6 | h15
    · rw [h0] at hrange
      exact absurd hrange (by decide)
    · omega
    · omega

end Sys2Proof.Machine

/-! PROOFS. The font: the bits of GLU's report, its two outcomes, and GLU's whole rule (40_font.md R100 to R106). -/

namespace Sys2Proof.Machine

/-! ### Splitting a field of a word -/

/-- A slice of a word spells `hi ++ lo` exactly when its upper part is `hi` and its lower part `lo`. -/
theorem extractLsb'_eq_append_iff {m n : Nat} (w : Word) (start : Nat) (hi : BitVec m) (lo : BitVec n) :
    w.extractLsb' start (m + n) = hi ++ lo ↔
      w.extractLsb' (start + n) m = hi ∧ w.extractLsb' start n = lo := by
  rw [← BitVec.extractLsb'_append_extractLsb'_eq_extractLsb' rfl]
  constructor
  · intro h
    constructor
    · simpa only [BitVec.extractLsb'_append_eq_left] using congrArg (BitVec.extractLsb' n m) h
    · simpa only [BitVec.setWidth_append_eq_right] using congrArg (BitVec.setWidth n) h
  · rintro ⟨rfl, rfl⟩
    rfl

/-- GLU's opcode and its reserved bits are one 16-bit field, the upper half of its word (R72, R106). -/
theorem gluUpperHalf_iff (w : Word) :
    w.extractLsb' 16 16 = 0x0500#16 ↔ opField w = 0x05#8 ∧ w.extractLsb' 16 8 = 0#8 :=
  extractLsb'_eq_append_iff w 16 0x05#8 0#8

/-- The words of one GLU command, in the fields R106 names. -/
theorem decode_glu_iff_fields (w : Word) (ch row : Byte) :
    decode w = .ok (.glu ch row) ↔
      w.extractLsb' 16 16 = 0x0500#16 ∧ w.extractLsb' 8 8 = row ∧ w.extractLsb' 0 8 = ch := by
  rw [decode_glu_iff, gluUpperHalf_iff, rowField, lowByte]
  tauto

/-! ### GLU's report, bit by bit -/

/-- An undefined code reports nothing (R105, R106). -/
theorem gluReport_of_undefined (rom : GlyphRom) (ch : Byte) (row : Nat) (h : isDefined ch = false) :
    gluReport rom ch row = 0 := by
  simp [gluReport, glyphLookup, h]

/-- A defined code reports its glyph row in bits 4:0 and its classes in bits 8 to 10 (R106). -/
theorem gluReport_bit_of_defined (rom : GlyphRom) (ch : Byte) (row i : Nat) (h : isDefined ch = true) :
    (gluReport rom ch row).getLsbD i =
      if i < 5 then glyphBit (glyphOf rom (norm ch)) row i
      else if i = 8 then true
      else if i = 9 then isNarrow ch
      else if i = 10 then isSpace ch
      else false := by
  simp only [gluReport, glyphLookup, h, if_true, BitVec.getLsbD_setWidth]
  by_cases hi : i < 11
  · simp only [BitVec.getLsbD_append, BitVec.getLsbD_ofBool]
    interval_cases i <;> simp
  · rw [BitVec.getLsbD_of_ge _ i (by omega)]
    simp [show ¬i < 5 by omega, show i ≠ 8 by omega, show i ≠ 9 by omega, show i ≠ 10 by omega]

/-- The report in the plain words of R100 to R104, for every font. -/
theorem gluReport_bit (rom : GlyphRom) (ch : Byte) (row i : Nat) :
    (gluReport rom ch row).getLsbD i =
      (codeDefined ch &&
        if i < 5 then fontBit rom ch row i
        else if i = 8 then true
        else if i = 9 then codeNarrow ch
        else if i = 10 then codeSpace ch
        else false) := by
  rw [codeDefined_eq, codeNarrow_eq, codeSpace_eq, fontBit_eq]
  cases h : isDefined ch with
  | false => simp [gluReport_of_undefined rom ch row h]
  | true => simp [gluReport_bit_of_defined rom ch row i h]

/-! ### GLU's two outcomes -/

theorem exec_glu_of_row_gt (ch row : Byte) (s : State) (h : 6 < row.toNat) :
    exec (.glu ch row) s = .next (s.raise .range) := by
  simp [exec, execGlu, glyphRowInRange, Nat.not_le.mpr h]

theorem exec_glu_of_row_le (ch row : Byte) (s : State) (h : row.toNat ≤ 6) :
    exec (.glu ch row) s = .next (s.setRes (gluReport Config.glyphRom ch row.toNat)) := by
  simp [exec, execGlu, glyphRowInRange, h]

/-- Settles O9: the word's upper half is GLU's opcode over its reserved bits, and GLU either raises
Error(RANGE) or writes its report to RES and nothing else. -/
theorem gluReportsOneGlyphRow : Obligations.GluReportsOneGlyphRow := by
  unfold Obligations.GluReportsOneGlyphRow
  refine ⟨decode_glu_iff_fields, fun w hop hres => ?_, fun ch row s => ⟨fun hrow => ?_, fun hrow => ?_⟩⟩
  · have hd : decode w = .error .reservedBits :=
      decode_reserved w (.inr (.inr (.inr (.inr (.inl ⟨hop, hres⟩)))))
    exact raisesIll_of_error w _ hd
  · exact ⟨_, exec_glu_of_row_gt ch row s hrow, raise_range_errorOnly s, sameHost_refl s⟩
  · exact ⟨_, exec_glu_of_row_le ch row s hrow, fun i _ => gluReport_bit Config.glyphRom ch row.toNat i,
      rfl, sameText_refl s, sameMask_refl s, sameSrc_refl s, rfl, sameHost_refl s⟩

end Sys2Proof.Machine

/-! PROOFS. Rendering: the text buffer commands, an undefined code in a text, what RENDER reads, MRD, and the commands and steps that keep the text or the mask (41_render.md R121 to R138). -/

namespace Sys2Proof.Machine

/-! ### Command words as fields -/

/-- A command without operands has one word, its opcode over 24 zero bits (R72). -/
theorem eq_opcode_append_zero_iff (w : Word) (op : Byte) :
    w = op ++ 0#24 ↔ opField w = op ∧ w.extractLsb' 0 24 = 0#24 := by
  have hsplit := extractLsb'_eq_append_iff w 0 op 0#24
  rwa [BitVec.extractLsb'_eq_self] at hsplit

theorem decode_txclr_iff_word (w : Word) : decode w = .ok .txclr ↔ w = 0x01000000#32 := by
  rw [decode_txclr_iff]
  exact (eq_opcode_append_zero_iff w 0x01#8).symm

/-- TXPUT's opcode and its reserved bits are one 24-bit field (R72, R122). -/
theorem decode_txput_iff_fields (w : Word) (ch : Byte) :
    decode w = .ok (.txput ch) ↔ w.extractLsb' 8 24 = 0x020000#24 ∧ w.extractLsb' 0 8 = ch := by
  have hsplit : w.extractLsb' 8 24 = 0x020000#24 ↔ opField w = 0x02#8 ∧ w.extractLsb' 8 16 = 0#16 :=
    extractLsb'_eq_append_iff w 8 0x02#8 0#16
  rw [decode_txput_iff, hsplit, and_assoc, lowByte]

/-- MRD's opcode and its reserved bits are one 16-bit field, the upper half of its word (R72, R137). -/
theorem decode_mrd_iff_fields (w : Word) (row col : Byte) :
    decode w = .ok (.mrd row col) ↔
      w.extractLsb' 16 16 = 0x0400#16 ∧ w.extractLsb' 8 8 = row ∧ w.extractLsb' 0 8 = col := by
  have hsplit : w.extractLsb' 16 16 = 0x0400#16 ↔ opField w = 0x04#8 ∧ w.extractLsb' 16 8 = 0#8 :=
    extractLsb'_eq_append_iff w 16 0x04#8 0#8
  rw [decode_mrd_iff, hsplit, and_assoc, rowField, lowByte]

/-! ### Parts left alone -/

theorem sameMask_of_eq {s t : State} (h : t.mask = s.mask) : SameMask s t :=
  fun r c _ _ => congrArg (maskRead · r c) h

theorem sameSrc_of_eq {s t : State} (h : t.src = s.src) : SameSrc s t :=
  fun a => congrArg (memRead · a) h

/-! ### The text buffer -/

theorem pushChar_tbuf_getElem_of_room (s : State) (ch : Byte) (h : s.tlen.toNat < 14) (i : Nat) (hi : i < 14) :
    (s.pushChar ch).tbuf[i] = if i = s.tlen.toNat then ch else s.tbuf[i] := by
  simp only [pushChar_of_room s ch h, Vector.getElem_set, eq_comm]

theorem pushChar_status_of_room (s : State) (ch : Byte) (h : s.tlen.toNat < 14) :
    (s.pushChar ch).status = s.status := by
  rw [pushChar_of_room s ch h]

theorem pushChar_status_of_full (s : State) (ch : Byte) (h : 14 ≤ s.tlen.toNat) :
    (s.pushChar ch).status = setTrunc s.status := by
  rw [pushChar_of_full s ch h]

theorem sameText_pushChar_of_full (s : State) (ch : Byte) (h : 14 ≤ s.tlen.toNat) :
    SameText s (s.pushChar ch) := by
  rw [pushChar_of_full s ch h]
  exact sameText_refl s

/-- Settles O6: TXCLR has the one word of its opcode, and goes on with the cleared text buffer. -/
theorem txclrEmptiesTheTextBuffer : Obligations.TxclrEmptiesTheTextBuffer := by
  unfold Obligations.TxclrEmptiesTheTextBuffer
  refine ⟨decode_txclr_iff_word, fun w hop hres => ?_, fun s => ?_⟩
  · exact raisesIll_of_error w _ (decode_reserved w (.inl ⟨hop, hres⟩))
  · exact ⟨s.clearText, rfl, rfl, fun i _ => clearTrunc_bit s.status i, fun _ _ => rfl, rfl,
      sameMask_refl s, sameSrc_refl s, rfl, sameHost_refl s⟩

/-- Settles O7: TXPUT goes on with the code pushed, which appends it below 14 codes and sets TRUNC from
14 up. -/
theorem txputAppendsOrDrops : Obligations.TxputAppendsOrDrops := by
  unfold Obligations.TxputAppendsOrDrops
  refine ⟨decode_txput_iff_fields, fun w hop hres => ?_, fun ch s => ?_⟩
  · exact raisesIll_of_error w _ (decode_reserved w (.inr (.inl ⟨hop, hres⟩)))
  · refine ⟨s.pushChar ch, rfl, fun hroom => ?_, fun hfull => ?_, pushChar_res s ch,
      sameMask_of_eq (pushChar_mask s ch), sameSrc_of_eq (pushChar_src s ch), pushChar_hout s ch,
      pushChar_pending s ch, pushChar_received s ch⟩
    · exact ⟨pushChar_tlen s ch hroom, pushChar_tbuf_getElem_of_room s ch hroom,
        pushChar_status_of_room s ch hroom⟩
    · refine ⟨sameText_pushChar_of_full s ch hfull, fun i _ => ?_⟩
      rw [pushChar_status_of_full s ch hfull, setTrunc_bit]

/-! ### An undefined code in a text -/

section
variable {u : Byte} (hu : isDefined u = false)
include hu

theorem isDrawn_of_undefined : isDrawn u = false := by
  simp [isDrawn, hu]

/-- An undefined code leaves the cursor where it is (R127). -/
theorem advanceCursor_of_undefined (cur : Int) : advanceCursor u cur = cur := by
  have hspace : isSpace u = false := by
    cases h : isSpace u with
    | false => rfl
    | true => exact absurd (isDefined_of_isSpace u h) (by simp [hu])
  simp [advanceCursor, hspace, hu]

theorem walkLine_skip_undefined (rom : GlyphRom) (line : Nat) (before after : List Byte) (cur : Int) (m : Mask) :
    walkLine rom line (before ++ u :: after) cur m = walkLine rom line (before ++ after) cur m := by
  rw [walkLine_append, walkLine_append, walkLine, advanceCursor_of_undefined hu,
    isDrawn_of_undefined hu, if_neg Bool.false_ne_true]

theorem drawnCount_skip_undefined (before after : List Byte) :
    drawnCount (before ++ u :: after) = drawnCount (before ++ after) := by
  simp [drawnCount, isDrawn_of_undefined hu]

theorem narrowCount_skip_undefined (before after : List Byte) :
    narrowCount (before ++ u :: after) = narrowCount (before ++ after) := by
  simp [narrowCount, hu]

theorem textWidth_skip_undefined (before after : List Byte) :
    textWidth (before ++ u :: after) = textWidth (before ++ after) := by
  rw [textWidth, drawnCount_skip_undefined hu, narrowCount_skip_undefined hu, textWidth]

theorem startOffset_skip_undefined (before after : List Byte) :
    startOffset (before ++ u :: after) = startOffset (before ++ after) := by
  rw [startOffset, textWidth_skip_undefined hu, startOffset]

theorem renderMask_skip_undefined (rom : GlyphRom) (before after : List Byte) :
    renderMask rom (before ++ u :: after) = renderMask rom (before ++ after) := by
  simp only [renderMask, startOffset_skip_undefined hu, walkLine_skip_undefined hu]

theorem layoutReport_skip_undefined (before after : List Byte) :
    layoutReport (before ++ u :: after) = layoutReport (before ++ after) := by
  simp only [layoutReport, narrowCount_skip_undefined hu, drawnCount_skip_undefined hu,
    textWidth_skip_undefined hu, startOffset_skip_undefined hu]

end

/-- Settles O12: an undefined code counts for neither D nor K, draws nothing and leaves the cursor. -/
theorem undefinedCodesAreSkipped : Obligations.UndefinedCodesAreSkipped := by
  unfold Obligations.UndefinedCodesAreSkipped
  intro rom before after u hcode
  have hu : isDefined u = false := codeDefined_eq u ▸ hcode
  exact ⟨renderMask_skip_undefined hu rom before after, layoutReport_skip_undefined hu before after⟩

/-! ### What RENDER reads -/

/-- RENDER's text is TLEN and the codes below it (R23, R135). -/
theorem text_congr (s₁ s₂ : State) (hlen : s₁.tlen = s₂.tlen)
    (hbuf : ∀ (i : Nat) (h : i < 14), i < s₁.tlen.toNat → s₁.tbuf[i] = s₂.tbuf[i]) : s₁.text = s₂.text := by
  refine List.ext_getElem (by simp [State.text, hlen]) fun i h₁ _ => ?_
  obtain ⟨hi, h14⟩ : i < s₁.tlen.toNat ∧ i < 14 := by simpa [State.text] using h₁
  simpa [State.text] using hbuf i h14 hi

/-- A command that is neither TXCLR nor TXPUT keeps the text buffer (R23). -/
theorem exec_keeps_text (i : Instr) (s t : State) (hclr : i ≠ .txclr) (hput : ∀ ch, i ≠ .txput ch)
    (h : exec i s = .next t) : SameText s t := by
  rcases exec_cases i s t h with ⟨hi, -⟩ | ⟨ch, hi, -⟩ | ⟨-, rfl⟩ | ⟨_, -, rfl⟩ | ⟨_, -, rfl⟩ | ⟨_, -, rfl⟩ |
    ⟨_, _, -, rfl⟩ | ⟨_, _, _, -, -, rfl⟩ | ⟨-, rfl⟩ | ⟨_, _, -, -, rfl⟩ | ⟨-, rfl⟩
  · exact absurd hi hclr
  · exact absurd hi (hput ch)
  all_goals exact sameText_refl s

/-- So does any run of such commands. -/
theorem runCommands_keeps_text (is : List Instr) (s t : State)
    (his : ∀ i ∈ is, i ≠ .txclr ∧ ∀ ch, i ≠ .txput ch) (h : runCommands is s = .next t) :
    t.text = s.text := by
  induction is generalizing s with
  | nil =>
    obtain rfl : s = t := by simpa [runCommands] using h
    rfl
  | cons i is ih =>
    obtain ⟨⟨hclr, hput⟩, hrest⟩ := List.forall_mem_cons.mp his
    rw [runCommands] at h
    cases hx : exec i s with
    | next x =>
      rw [hx] at h
      rw [ih x hrest h, text_of_same s x (exec_keeps_text i s x hclr hput hx)]
    | fault f => simp [hx] at h
    | refused r => simp [hx] at h

theorem exec_render_eq (s : State) : exec .render s =
    .next { s with mask := renderMask Config.glyphRom s.text, res := layoutReport s.text } := rfl

/-- Two RENDERs of the same text write the same mask and the same RES (R135). -/
theorem render_agrees_of_text_eq (s₁ s₂ t₁ t₂ : State) (htext : s₁.text = s₂.text)
    (h₁ : exec .render s₁ = .next t₁) (h₂ : exec .render s₂ = .next t₂) :
    t₁.mask = t₂.mask ∧ t₁.res = t₂.res := by
  rw [exec_render_eq, Host.Outcome.next.injEq] at h₁ h₂
  subst h₁ h₂
  exact ⟨congrArg (renderMask Config.glyphRom) htext, congrArg layoutReport htext⟩

/-- Settles O16: RENDER reads the text alone, and only TXCLR and TXPUT change it. -/
theorem renderDependsOnTheTextAlone : Obligations.RenderDependsOnTheTextAlone := by
  unfold Obligations.RenderDependsOnTheTextAlone
  refine ⟨fun s₁ s₂ hlen hbuf => ?_, fun between s t u v hbetween hst htu huv => ?_⟩
  · exact ⟨_, _, exec_render_eq s₁, exec_render_eq s₂,
      render_agrees_of_text_eq s₁ s₂ _ _ (text_congr s₁ s₂ hlen hbuf) (exec_render_eq s₁) (exec_render_eq s₂)⟩
  · have htext : u.text = s.text := calc
      u.text = t.text := runCommands_keeps_text between t u hbetween htu
      _ = s.text := text_of_same s t (exec_keeps_text .render s t (by simp) (by simp) hst)
    exact render_agrees_of_text_eq u s v t htext huv hst

/-! ### MRD -/

theorem exec_mrd_of_outside (row col : Byte) (s : State) (h : 6 < row.toNat ∨ 127 < col.toNat) :
    exec (.mrd row col) s = .next (s.raise .range) := by
  have hrange : pixelInRange row col = false := by
    simp only [pixelInRange, Bool.and_eq_false_iff, decide_eq_false_iff_not]
    omega
  rw [exec, execMrd, hrange, whenInRange_false]

theorem exec_mrd_of_inside (row col : Byte) (s : State) (hrow : row.toNat ≤ 6) (hcol : col.toNat ≤ 127) :
    exec (.mrd row col) s =
      .next (s.setRes ((BitVec.ofBool (maskRead s.mask row.toNat col.toNat)).setWidth 32)) := by
  have hrange : pixelInRange row col = true := by simp [pixelInRange, hrow, hcol]
  rw [exec, execMrd, hrange, whenInRange_true]

theorem toNat_setWidth_ofBool (b : Bool) : ((BitVec.ofBool b).setWidth 32).toNat = b.toNat := by
  cases b <;> rfl

/-- Settles O17: outside the grid MRD raises Error(RANGE); inside it writes the pixel to RES and nothing
else. -/
theorem mrdReadsOnePixel : Obligations.MrdReadsOnePixel := by
  unfold Obligations.MrdReadsOnePixel
  refine ⟨decode_mrd_iff_fields, fun w hop hres => ?_, fun r c _ _ => maskRead_maskClear r c,
    fun row col s => ⟨fun hout => ?_, fun hrow hcol => ?_⟩⟩
  · exact raisesIll_of_error w _ (decode_reserved w (.inr (.inr (.inr (.inl ⟨hop, hres⟩)))))
  · exact ⟨_, exec_mrd_of_outside row col s hout, raise_range_errorOnly s, sameHost_refl s⟩
  · exact ⟨_, exec_mrd_of_inside row col s hrow hcol, toNat_setWidth_ofBool _, rfl, sameText_refl s,
      sameMask_refl s, sameSrc_refl s, rfl, sameHost_refl s⟩

/-! ### What keeps the mask -/

/-- A command other than RENDER keeps the mask (R138). -/
theorem exec_keeps_mask (i : Instr) (s t : State) (hrender : i ≠ .render) (h : exec i s = .next t) :
    t.mask = s.mask := by
  rcases exec_cases i s t h with ⟨-, rfl⟩ | ⟨ch, -, rfl⟩ | ⟨hi, -⟩ | ⟨_, -, rfl⟩ | ⟨_, -, rfl⟩ | ⟨_, -, rfl⟩ |
    ⟨_, _, -, rfl⟩ | ⟨_, _, _, -, -, rfl⟩ | ⟨-, rfl⟩ | ⟨_, _, -, -, rfl⟩ | ⟨-, rfl⟩
  · rfl
  · exact pushChar_mask s ch
  · exact absurd hi hrender
  all_goals rfl

/-- Settles O37: of the actions a step can carry out, only a reset and the command RENDER write the
mask. -/
theorem onlyRenderAndResetChangeTheMask : Obligations.OnlyRenderAndResetChangeTheMask := by
  unfold Obligations.OnlyRenderAndResetChangeTheMask
  intro s t hstep hreset hrender
  rcases step_cases s t hstep with ⟨rfl, -⟩ | ⟨w, left, i, hw, hd, hexec⟩ | ⟨_, left, _, -, -, rfl⟩ |
    ⟨left, _, -, rfl, -⟩ | ⟨left, _, _, -, -, rfl⟩ | ⟨left, hr, -⟩
  · exact sameMask_refl t
  · have hi : i ≠ .render := by
      rintro rfl
      exact hrender ⟨w, left, hw, hd⟩
    exact sameMask_of_eq (exec_keeps_mask i (s.withPending left) t hi hexec)
  · exact sameMask_refl s
  · exact sameMask_refl s
  · exact sameMask_refl s
  · exact absurd ⟨left, hr⟩ hreset

end Sys2Proof.Machine

/-! PROOFS. The Source Memory commands: reading after a write, SRD's two outcomes, and the whole rules of SWR and SRD (42_source.md R161, R162). -/

namespace Sys2Proof.Machine

/-! ### SWR -/

/-- Reading after a write: the byte written at its own address, every other byte as before (R52). -/
theorem memRead_memWrite (m : Memory) (a b : Nat) (v : Byte) :
    memRead (memWrite m a v) b = if b = a then some v else memRead m b := by
  split
  next h => rw [h, memRead_memWrite_same]
  next h => exact memRead_memWrite_other m a b v h

theorem exec_swr_eq (addr : Addr) (b : Byte) (s : State) : exec (.swr addr b) s = .next (s.srcWrite addr b) := rfl

/-- Settles O18: SWR reserves no bit, and goes on with its one byte written to the Source Memory. -/
theorem swrWritesOneByte : Obligations.SwrWritesOneByte := by
  unfold Obligations.SwrWritesOneByte
  refine ⟨decode_swr_iff, fun addr b s => ?_⟩
  exact ⟨s.srcWrite addr b, exec_swr_eq addr b s, fun a => memRead_memWrite s.src addr.toNat a b, rfl, rfl,
    sameText_refl s, sameMask_refl s, rfl, sameHost_refl s⟩

/-! ### SRD -/

theorem srcRead_of_written (m : Memory) (a : Nat) (b : Byte) (h : memRead m a = some b) :
    srcRead m a = .ok b := by
  rw [srcRead, h]

theorem srcRead_of_unwritten (m : Memory) (a : Nat) (h : memRead m a = none) :
    srcRead m a = .error (.srcUnwritten a) := by
  rw [srcRead, h]

theorem exec_srd_of_written (addr : Addr) (b : Byte) (s : State) (h : memRead s.src addr.toNat = some b) :
    exec (.srd addr) s = .next (s.setRes (b.setWidth 32)) := by
  rw [exec, execSrd, srcRead_of_written _ _ b h, onRead]

theorem exec_srd_of_unwritten (addr : Addr) (s : State) (h : memRead s.src addr.toNat = none) :
    exec (.srd addr) s = .fault (.srcUnwritten addr.toNat) := by
  rw [exec, execSrd, srcRead_of_unwritten _ _ h, onRead]

/-- Settles O19: SRD writes the byte to RES and nothing else where it has been written, and stops with
the fault SrcUnwritten where it has not. -/
theorem srdReadsOneByte : Obligations.SrdReadsOneByte := by
  unfold Obligations.SrdReadsOneByte
  refine ⟨decode_srd_iff, fun w hop hres => ?_, fun addr s => ⟨fun b hb => ?_, fun hnone => ?_⟩⟩
  · have hd : decode w = .error .reservedBits :=
      decode_reserved w (.inr (.inr (.inr (.inr (.inr (.inl ⟨hop, hres⟩))))))
    exact raisesIll_of_error w _ hd
  · exact ⟨_, exec_srd_of_written addr b s hb, BitVec.toNat_setWidth_of_le (by decide), rfl, sameText_refl s,
      sameMask_refl s, sameSrc_refl s, rfl, sameHost_refl s⟩
  · exact exec_srd_of_unwritten addr s hnone

end Sys2Proof.Machine

/-! PROOFS. The Intel-HEX encoder: the outcomes of HXREC and ENCODE in and out of range, their whole rules, and that what they append is fixed by the bytes they read (43_hex.md R185, R187, R190). -/

namespace Sys2Proof.Machine

/-! ### Appending to HOUT -/

/-- Appending to HOUT leaves the rest of the state alone (R26). -/
theorem emit_frame (s : State) (cs : List Byte) :
    (s.emit cs).res = s.res ∧ (s.emit cs).status = s.status ∧ SameText s (s.emit cs) ∧
      SameMask s (s.emit cs) ∧ SameSrc s (s.emit cs) ∧ SameHost s (s.emit cs) :=
  ⟨rfl, rfl, sameText_refl s, sameMask_refl s, sameSrc_refl s, sameHost_refl s⟩

/-- A command that checks its range, reads source bytes and appends goes on in two ways: with the range
error alone, or with what it read appended (R223, R233). -/
theorem whenInRange_onRead_emit_iff (ok : Bool) (r : Except Fault (List Byte)) (s t : State) :
    whenInRange ok s (onRead r s.emit) = .next t ↔
      (ok = false ∧ t = s.raise .range) ∨ (ok = true ∧ ∃ cs, r = .ok cs ∧ t = s.emit cs) := by
  cases ok with
  | false => simp [eq_comm]
  | true =>
    cases r with
    | ok cs => simp [eq_comm]
    | error f => simp

/-! ### HXREC -/

theorem exec_hxrec_eq (addr : Addr) (n : BitVec 5) (s : State) :
    exec (.hxrec addr n) s =
      whenInRange (chunkInRange addr n) s (onRead (chunkRecord s.src addr.toNat n.toNat) s.emit) := rfl

theorem chunkInRange_iff (addr : Addr) (n : BitVec 5) :
    chunkInRange addr n = true ↔ ¬OutOfRange (.hxrec addr n) := by
  simp only [chunkInRange, OutOfRange, Bool.and_eq_true, decide_eq_true_eq]
  omega

theorem exec_hxrec_of_outOfRange (addr : Addr) (n : BitVec 5) (s : State) (h : OutOfRange (.hxrec addr n)) :
    exec (.hxrec addr n) s = .next (s.raise .range) := by
  have hrange : chunkInRange addr n = false := by
    rwa [← Bool.not_eq_true, chunkInRange_iff, not_not]
  rw [exec_hxrec_eq, hrange, whenInRange_false]

/-- In range and all bytes written, HXREC appends their record in plain numbers (R180, R185). -/
theorem exec_hxrec_of_written (addr : Addr) (n : BitVec 5) (s : State) (h : ¬OutOfRange (.hxrec addr n))
    (hw : Written s.src addr.toNat n.toNat) :
    exec (.hxrec addr n) s =
      .next (s.emit (recordText addr.toNat (srcBytes s.src addr.toNat n.toNat))) := by
  have hlen : (srcBytes s.src addr.toNat n.toNat).length < 256 := by
    rw [srcBytes_length]
    omega
  rw [exec_hxrec_eq, (chunkInRange_iff addr n).mpr h, whenInRange_true, chunkRecord_of_written _ _ _ hw,
    onRead_ok, BitVec.ofNat_toNat, BitVec.setWidth_eq, dataRecord_eq _ _ hlen]

theorem exec_hxrec_of_unwritten (addr : Addr) (n : BitVec 5) (s : State) (x : Nat)
    (h : ¬OutOfRange (.hxrec addr n)) (hx : FirstUnwritten s.src addr.toNat n.toNat x) :
    exec (.hxrec addr n) s = .fault (.srcUnwritten x) := by
  rw [exec_hxrec_eq, (chunkInRange_iff addr n).mpr h, whenInRange_true, chunkRecord_of_unwritten _ _ _ x hx,
    onRead_error]

/-- Settles O21: out of range HXREC raises Error(RANGE); in range it appends the record of its bytes, or
stops at the first of them that is unwritten. -/
theorem hxrecAppendsOneRecord : Obligations.HxrecAppendsOneRecord := by
  unfold Obligations.HxrecAppendsOneRecord
  refine ⟨decode_hxrec_iff, fun w hop hres => ?_, fun addr n s => ⟨fun hout => ?_, fun h1 h16 hend => ?_⟩⟩
  · have hd : decode w = .error .reservedBits :=
      decode_reserved w (.inr (.inr (.inr (.inr (.inr (.inr (.inl ⟨hop, hres⟩)))))))
    exact raisesIll_of_error w _ hd
  · exact ⟨_, exec_hxrec_of_outOfRange addr n s hout, raise_range_errorOnly s, sameHost_refl s⟩
  · have hin : ¬OutOfRange (.hxrec addr n) := by
      simp only [OutOfRange]
      omega
    refine ⟨fun hw => ?_, fun hnot => ?_⟩
    · exact ⟨_, exec_hxrec_of_written addr n s hin hw, rfl, emit_frame s _⟩
    · obtain ⟨x, hx⟩ := (written_or_first s.src addr.toNat n.toNat).resolve_left hnot
      have hfault := exec_hxrec_of_unwritten addr n s x hin hx
      obtain ⟨hlow, hhigh, hnone, -⟩ := hx
      exact ⟨x, hnone, hlow, hhigh, hfault⟩

/-! ### ENCODE -/

theorem exec_encode_eq (len : BitVec 17) (s : State) :
    exec (.encode len) s = whenInRange (lenInRange len) s (onRead (encodeText s.src len.toNat) s.emit) := rfl

theorem lenInRange_iff (len : BitVec 17) : lenInRange len = true ↔ len.toNat ≤ 0x10000 :=
  decide_eq_true_iff

theorem exec_encode_of_outOfRange (len : BitVec 17) (s : State) (h : 0x10000 < len.toNat) :
    exec (.encode len) s = .next (s.raise .range) := by
  have hrange : lenInRange len = false := by
    rwa [← Bool.not_eq_true, lenInRange_iff, not_le]
  rw [exec_encode_eq, hrange, whenInRange_false]

theorem exec_encode_of_written (len : BitVec 17) (s : State) (h : len.toNat ≤ 0x10000)
    (hw : Written s.src 0 len.toNat) :
    exec (.encode len) s = .next (s.emit (fileText (srcBytes s.src 0 len.toNat))) := by
  rw [exec_encode_eq, (lenInRange_iff len).mpr h, whenInRange_true, encodeText_of_written _ _ h hw, onRead_ok]

theorem exec_encode_of_unwritten (len : BitVec 17) (s : State) (x : Nat) (h : len.toNat ≤ 0x10000)
    (hx : FirstUnwritten s.src 0 len.toNat x) : exec (.encode len) s = .fault (.srcUnwritten x) := by
  rw [exec_encode_eq, (lenInRange_iff len).mpr h, whenInRange_true, encodeText_of_unwritten _ _ x hx,
    onRead_error]

/-- Settles O23: out of range ENCODE raises Error(RANGE); in range it appends the HEX file of its bytes,
or stops at the first of them that is unwritten. -/
theorem encodeAppendsTheWholeFile : Obligations.EncodeAppendsTheWholeFile := by
  unfold Obligations.EncodeAppendsTheWholeFile
  refine ⟨decode_encode_iff, fun w hop hres => ?_,
    fun len s => ⟨fun hout => ?_, fun hin => ⟨fun hw => ?_, fun hnot => ?_⟩⟩⟩
  · have hd : decode w = .error .reservedBits :=
      decode_reserved w (.inr (.inr (.inr (.inr (.inr (.inr (.inr (.inr ⟨hop, hres⟩))))))))
    exact raisesIll_of_error w _ hd
  · exact ⟨_, exec_encode_of_outOfRange len s hout, raise_range_errorOnly s, sameHost_refl s⟩
  · exact ⟨_, exec_encode_of_written len s hin hw, rfl, emit_frame s _⟩
  · obtain ⟨x, hx⟩ := (written_or_first s.src 0 len.toNat).resolve_left hnot
    have hfault := exec_encode_of_unwritten len s x hin hx
    obtain ⟨-, hhigh, hnone, -⟩ := hx
    exact ⟨x, hnone, by omega, hfault⟩

/-! ### What the encoder reads -/

/-- The two memories hold the same bytes in `[a, a + n)`, or leave them unwritten alike (R190). -/
def AgreeOn (m₁ m₂ : Memory) (a n : Nat) : Prop := ∀ j, j < n → memRead m₁ (a + j) = memRead m₂ (a + j)

section
variable {m₁ m₂ : Memory} {a n : Nat} (hag : AgreeOn m₁ m₂ a n)
include hag

theorem AgreeOn.written (h : Written m₁ a n) : Written m₂ a n :=
  fun j hj => hag j hj ▸ h j hj

theorem AgreeOn.srcBytes_eq : srcBytes m₁ a n = srcBytes m₂ a n :=
  List.map_congr_left fun j hj => by rw [hag j (List.mem_range.mp hj)]

theorem AgreeOn.firstUnwritten {x : Nat} (h : FirstUnwritten m₁ a n x) : FirstUnwritten m₂ a n x := by
  have hread : ∀ y, a ≤ y → y < a + n → memRead m₁ y = memRead m₂ y := fun y hlow hhigh => by
    simpa [Nat.add_sub_cancel' hlow] using hag (y - a) (by omega)
  obtain ⟨hlow, hhigh, hnone, hbelow⟩ := h
  exact ⟨hlow, hhigh, hread x hlow hhigh ▸ hnone,
    fun y hy hyx => hread y hy (by omega) ▸ hbelow y hy hyx⟩

/-- A reader that answers from the bytes of a range, or faults at the first unwritten one, answers alike
on memories that agree there (R190). -/
theorem AgreeOn.reads_eq {α : Type} (f : Memory → Except Fault α) (g : List Byte → α)
    (hok : ∀ m, Written m a n → f m = .ok (g (srcBytes m a n)))
    (hfault : ∀ m x, FirstUnwritten m a n x → f m = .error (.srcUnwritten x)) : f m₁ = f m₂ := by
  rcases written_or_first m₁ a n with hw | ⟨x, hx⟩
  · rw [hok m₁ hw, hok m₂ (hag.written hw), hag.srcBytes_eq]
  · rw [hfault m₁ x hx, hfault m₂ x (hag.firstUnwritten hx)]

theorem AgreeOn.chunkRecord_eq : chunkRecord m₁ a n = chunkRecord m₂ a n :=
  hag.reads_eq (chunkRecord · a n) (dataRecord (BitVec.ofNat 16 a))
    (chunkRecord_of_written · a n) (chunkRecord_of_unwritten · a n)

end

theorem AgreeOn.encodeText_eq {m₁ m₂ : Memory} {len : Nat} (hag : AgreeOn m₁ m₂ 0 len) (hl : len ≤ 0x10000) :
    encodeText m₁ len = encodeText m₂ len :=
  hag.reads_eq (encodeText · len) fileText
    (fun m hw => encodeText_of_written m len hl hw) (encodeText_of_unwritten · len)

/-- Where the reads agree, two states append the same characters. -/
theorem whenInRange_onRead_emit_appends_same (ok : Bool) (r₁ r₂ : Except Fault (List Byte))
    (hr : ok = true → r₁ = r₂) (s₁ s₂ t₁ : State) (h : whenInRange ok s₁ (onRead r₁ s₁.emit) = .next t₁) :
    ∃ t₂ out, whenInRange ok s₂ (onRead r₂ s₂.emit) = .next t₂ ∧
      t₁.hout = s₁.hout ++ out ∧ t₂.hout = s₂.hout ++ out := by
  rcases (whenInRange_onRead_emit_iff ok r₁ s₁ t₁).mp h with ⟨hok, rfl⟩ | ⟨hok, cs, hcs, rfl⟩
  · exact ⟨s₂.raise .range, [], (whenInRange_onRead_emit_iff ..).mpr (.inl ⟨hok, rfl⟩), by simp⟩
  · exact ⟨s₂.emit cs, cs, (whenInRange_onRead_emit_iff ..).mpr (.inr ⟨hok, cs, hr hok ▸ hcs, rfl⟩),
      rfl, rfl⟩

theorem whenInRange_onRead_emit_frame (ok : Bool) (r : Except Fault (List Byte)) (s t : State)
    (h : whenInRange ok s (onRead r s.emit) = .next t) :
    SameSrc s t ∧ SameMask s t ∧ SameText s t ∧ t.res = s.res ∧ (t.status = s.status ∨ ErrorOnly 1 s t) := by
  rcases (whenInRange_onRead_emit_iff ok r s t).mp h with ⟨-, rfl⟩ | ⟨-, cs, -, rfl⟩
  · exact ⟨sameSrc_refl s, sameMask_refl s, sameText_refl s, rfl, .inr (raise_range_errorOnly s)⟩
  · exact ⟨sameSrc_refl s, sameMask_refl s, sameText_refl s, rfl, .inl rfl⟩

/-- Settles O28: both commands check their range, read their bytes and append, and each read is fixed by
the bytes of its range. -/
theorem encoderReadsOnlyItsSourceBytes : Obligations.EncoderReadsOnlyItsSourceBytes := by
  unfold Obligations.EncoderReadsOnlyItsSourceBytes
  rintro i (⟨addr, n, rfl⟩ | ⟨len, rfl⟩)
  · simp only [exec_hxrec_eq, bytesRead]
    refine ⟨fun s₁ s₂ t₁ hag => ?_, fun s => whenInRange_onRead_emit_frame _ _ s⟩
    exact whenInRange_onRead_emit_appends_same _ _ _ (fun _ => AgreeOn.chunkRecord_eq hag) s₁ s₂ t₁
  · simp only [exec_encode_eq, bytesRead]
    refine ⟨fun s₁ s₂ t₁ hag => ?_, fun s => whenInRange_onRead_emit_frame _ _ s⟩
    refine whenInRange_onRead_emit_appends_same _ _ _ (fun hlen => ?_) s₁ s₂ t₁
    exact AgreeOn.encodeText_eq hag ((lenInRange_iff len).mp hlen)

end Sys2Proof.Machine

/-! PROOFS. Errors: the operand values that raise Error(RANGE), what a command and a step can do to STATUS, the STATUS bits that stay set, and texts longer than the buffer (60_exceptions.md R221 to R227). -/

namespace Sys2Proof.Machine

/-! ### Operands out of range -/

/-- On a listed operand value a command raises Error(RANGE) and does nothing else (R221, R223). -/
theorem exec_of_outOfRange (i : Instr) (s : State) (h : OutOfRange i) : exec i s = .next (s.raise .range) := by
  cases i with
  | mrd row col => exact exec_mrd_of_outside row col s h
  | glu ch row => exact exec_glu_of_row_gt ch row s h
  | hxrec addr n => exact exec_hxrec_of_outOfRange addr n s h
  | encode len => exact exec_encode_of_outOfRange len s h
  | txclr | txput | render | swr | srd | hxeof => exact h.elim

/-- Reading source bytes and appending leaves STATUS alone. -/
theorem onRead_emit_keeps_status (r : Except Fault (List Byte)) (s t : State)
    (h : onRead r s.emit = .next t) : t.status = s.status := by
  cases r with
  | ok cs =>
    rw [onRead_ok, Host.Outcome.next.injEq] at h
    rw [← h, emit_status]
  | error f => simp at h

/-- With its operands in range, a command that checks a range leaves STATUS alone. -/
theorem checked_exec_keeps_status_of_inRange (i : Instr) (s t : State)
    (hchecked : (∃ ch row, i = .glu ch row) ∨ (∃ row col, i = .mrd row col) ∨
      (∃ addr n, i = .hxrec addr n) ∨ ∃ len, i = .encode len)
    (hin : ¬OutOfRange i) (h : exec i s = .next t) : t.status = s.status := by
  rcases hchecked with ⟨ch, row, rfl⟩ | ⟨row, col, rfl⟩ | ⟨addr, n, rfl⟩ | ⟨len, rfl⟩
  · rw [exec_glu_of_row_le ch row s (not_lt.mp hin), Host.Outcome.next.injEq] at h
    rw [← h, setRes_status]
  · obtain ⟨hrow, hcol⟩ := not_or.mp hin
    rw [exec_mrd_of_inside row col s (not_lt.mp hrow) (not_lt.mp hcol), Host.Outcome.next.injEq] at h
    rw [← h, setRes_status]
  · rw [exec_hxrec_eq, (chunkInRange_iff addr n).mpr hin, whenInRange_true] at h
    exact onRead_emit_keeps_status _ s t h
  · rw [exec_encode_eq, (lenInRange_iff len).mpr (not_lt.mp hin), whenInRange_true] at h
    exact onRead_emit_keeps_status _ s t h

/-! ### What can happen to STATUS -/

/-- Everything a command that goes on can have done to STATUS, with its cause (R22, R220 to R223). -/
theorem exec_status_cases (i : Instr) (s t : State) (h : exec i s = .next t) :
    t.status = s.status ∨
    (i = .txclr ∧ t.status = clearTrunc s.status) ∨
    (∃ ch, i = .txput ch ∧ 14 ≤ s.tlen.toNat ∧ t.status = setTrunc s.status) ∨
    (OutOfRange i ∧ t.status = setError .range s.status) := by
  by_cases hin : OutOfRange i
  · rw [exec_of_outOfRange i s hin, Host.Outcome.next.injEq] at h
    exact .inr (.inr (.inr ⟨hin, by rw [← h, raise_status]⟩))
  · rcases exec_cases i s t h with ⟨hi, rfl⟩ | ⟨ch, hi, rfl⟩ | ⟨-, rfl⟩ | ⟨_, -, rfl⟩ | ⟨_, -, rfl⟩ |
      ⟨_, -, rfl⟩ | ⟨_, _, -, rfl⟩ | ⟨_, _, _, -, -, rfl⟩ | ⟨-, rfl⟩ | ⟨_, _, -, -, rfl⟩ | ⟨hchecked, -⟩
    · exact .inr (.inl ⟨hi, clearText_status s⟩)
    · rcases Nat.lt_or_ge s.tlen.toNat 14 with hroom | hfull
      · exact .inl (pushChar_status_of_room s ch hroom)
      · exact .inr (.inr (.inl ⟨ch, hi, hfull, pushChar_status_of_full s ch hfull⟩))
    any_goals exact .inl rfl
    exact .inl (checked_exec_keeps_status_of_inRange i s t hchecked hin h)

/-- Everything a step that goes on can have done to STATUS, with its cause (R22, R220 to R223, R250). -/
theorem step_status_cases (s t : State) (h : step s = .next t) :
    t.status = s.status ∨
    (StepsCommand s .txclr ∧ t.status = clearTrunc s.status) ∨
    (∃ ch, StepsCommand s (.txput ch) ∧ 14 ≤ s.tlen.toNat ∧ t.status = setTrunc s.status) ∨
    (∃ i, StepsCommand s i ∧ OutOfRange i ∧ t.status = setError .range s.status) ∨
    (∃ w left e, NextWord s w left ∧ decode w = .error e ∧ t.status = setError .ill s.status) ∨
    (StepsReset s ∧ t.status = 0) := by
  rcases step_cases s t h with ⟨rfl, -⟩ | ⟨w, left, i, hw, hd, hexec⟩ | ⟨w, left, e, hw, hd, rfl⟩ |
    ⟨left, v, -, rfl, -⟩ | ⟨left, c, cs, -, -, rfl⟩ | ⟨left, hr, rfl⟩
  · exact .inl rfl
  · have hcmd : StepsCommand s i := ⟨w, left, hw, hd⟩
    rcases exec_status_cases i (s.withPending left) t hexec with hst | ⟨rfl, hst⟩ | ⟨ch, rfl, hfull, hst⟩ |
      ⟨hout, hst⟩
    · exact .inl hst
    · exact .inr (.inl ⟨hcmd, hst⟩)
    · exact .inr (.inr (.inl ⟨ch, hcmd, hfull, hst⟩))
    · exact .inr (.inr (.inr (.inl ⟨i, hcmd, hout, hst⟩)))
  · exact .inr (.inr (.inr (.inr (.inl ⟨w, left, e, hw, hd, rfl⟩))))
  · exact .inl rfl
  · exact .inl rfl
  · exact .inr (.inr (.inr (.inr (.inr ⟨⟨left, hr⟩, rfl⟩))))

/-- Settles O29: the four checking commands raise Error(RANGE) on the listed values, and of what a command
can do to STATUS nothing else sets ERR_RANGE. -/
theorem rangeErrorsAreExactlyTheListed : Obligations.RangeErrorsAreExactlyTheListed := by
  unfold Obligations.RangeErrorsAreExactlyTheListed
  refine ⟨fun i s hout => ⟨_, exec_of_outOfRange i s hout, raise_range_errorOnly s, sameHost_refl s⟩,
    fun i s t h hs ht => ?_⟩
  rw [State.errRange] at hs ht
  rcases exec_status_cases i s t h with hst | ⟨-, hst⟩ | ⟨_, -, -, hst⟩ | ⟨hout, -⟩
  · rw [hst, hs] at ht
    exact absurd ht (by decide)
  · rw [hst, clearTrunc_bit, hs] at ht
    exact absurd ht (by decide)
  · rw [hst, setTrunc_bit, hs] at ht
    exact absurd ht (by decide)
  · exact hout

/-! ### Bits that stay set -/

/-- A step that is no reset keeps every set STATUS bit, but for TRUNC (bit 2) under TXCLR (R227). -/
theorem step_keeps_status_bit (s t : State) (h : step s = .next t) (hreset : ¬StepsReset s) (b : Nat)
    (hclr : b = 2 → ¬StepsCommand s .txclr) (hb : s.status.getLsbD b = true) : t.status.getLsbD b = true := by
  rcases step_status_cases s t h with hst | ⟨hcmd, hst⟩ | ⟨_, -, -, hst⟩ | ⟨_, -, -, hst⟩ |
    ⟨_, _, _, -, -, hst⟩ | ⟨hr, -⟩
  · rw [hst, hb]
  · have hne : b ≠ 2 := fun h2 => hclr h2 hcmd
    simp [hst, clearTrunc_bit, hb, hne]
  · rw [hst, setTrunc_bit, hb, Bool.true_or]
  · rw [hst, setError_bit, hb, Bool.true_or]
  · rw [hst, setError_bit, hb, Bool.true_or]
  · exact absurd hr hreset

/-- Settles O31: ERR_ILL, ERR_RANGE and TRUNC are STATUS bits 0, 1 and 2. -/
theorem errorBitsAreSticky : Obligations.ErrorBitsAreSticky := by
  unfold Obligations.ErrorBitsAreSticky
  intro s t h hreset
  exact ⟨step_keeps_status_bit s t h hreset 0 (by simp), step_keeps_status_bit s t h hreset 1 (by simp),
    fun htrunc hclr => step_keeps_status_bit s t h hreset 2 (fun _ => hclr) htrunc⟩

/-! ### Texts of any length -/

/-- One TXPUT after another (R122). -/
def State.pushChars (s : State) (codes : List Byte) : State := codes.foldl State.pushChar s

@[simp] theorem pushChars_nil (s : State) : s.pushChars [] = s := rfl

@[simp] theorem pushChars_cons (s : State) (ch : Byte) (codes : List Byte) :
    s.pushChars (ch :: codes) = (s.pushChar ch).pushChars codes := rfl

/-- A run of TXPUTs goes on in every state, with its codes pushed. -/
theorem runCommands_txput (codes : List Byte) (s : State) :
    runCommands (codes.map .txput) s = .next (s.pushChars codes) := by
  induction codes generalizing s with
  | nil => rfl
  | cons ch codes ih => exact ih (s.pushChar ch)

/-- What every TXPUT keeps, a run of them keeps. -/
theorem pushChars_keeps {α : Type} (part : State → α) (hpart : ∀ s ch, part (s.pushChar ch) = part s)
    (s : State) (codes : List Byte) : part (s.pushChars codes) = part s := by
  induction codes generalizing s with
  | nil => rfl
  | cons ch codes ih => rw [pushChars_cons, ih, hpart]

/-- TXPUT changes no STATUS bit but TRUNC (R122, R226). -/
theorem pushChar_status_bit_of_ne (b : Nat) (hb : b ≠ 2) (s : State) (ch : Byte) :
    (s.pushChar ch).status.getLsbD b = s.status.getLsbD b := by
  rcases Nat.lt_or_ge s.tlen.toNat 14 with hroom | hfull
  · rw [pushChar_status_of_room s ch hroom]
  · simp [pushChar_status_of_full s ch hfull, setTrunc_bit, hb]

/-- On a full buffer TXPUT keeps TLEN. -/
theorem pushChar_tlen_of_full (s : State) (ch : Byte) (h : 14 ≤ s.tlen.toNat) :
    (s.pushChar ch).tlen = s.tlen := by
  rw [pushChar_of_full s ch h]

/-- However many codes are pushed, the text is the first 14 of all (R122, R226). -/
theorem pushChars_text (s : State) (codes : List Byte) (h : s.tlen.toNat ≤ 14) :
    (s.pushChars codes).text = (s.text ++ codes).take 14 := by
  induction codes generalizing s with
  | nil => rw [pushChars_nil, List.append_nil, List.take_of_length_le (text_length_le s)]
  | cons ch codes ih =>
    rcases Nat.lt_or_ge s.tlen.toNat 14 with hroom | hfull
    · have hlen := pushChar_tlen s ch hroom
      rw [pushChars_cons, ih _ (by omega), pushChar_text s ch hroom, List.append_assoc, List.singleton_append]
    · have hlen : s.text.length = 14 := (text_length s h).trans (le_antisymm h hfull)
      rw [pushChars_cons, ih _ (by rwa [pushChar_tlen_of_full s ch hfull]),
        text_of_same s _ (sameText_pushChar_of_full s ch hfull), List.take_left' hlen, List.take_left' hlen]

/-- A run of TXPUTs sets TRUNC exactly when it drops a code (R122, R226). -/
theorem pushChars_trunc (s : State) (codes : List Byte) (h : s.tlen.toNat ≤ 14) :
    (s.pushChars codes).trunc = (s.trunc || decide (14 < s.tlen.toNat + codes.length)) := by
  induction codes generalizing s with
  | nil => simp [Nat.not_lt.mpr h]
  | cons ch codes ih =>
    rcases Nat.lt_or_ge s.tlen.toNat 14 with hroom | hfull
    · have hlen := pushChar_tlen s ch hroom
      have htrunc : (s.pushChar ch).trunc = s.trunc := by
        rw [State.trunc, pushChar_status_of_room s ch hroom, State.trunc]
      rw [pushChars_cons, ih _ (by omega), htrunc, hlen, List.length_cons, Nat.add_assoc, Nat.add_comm 1]
    · have htrunc : (s.pushChar ch).trunc = true := by
        simp [State.trunc, pushChar_status_of_full s ch hfull, setTrunc_bit]
      have hdrop : 14 < s.tlen.toNat + (ch :: codes).length := by
        rw [List.length_cons]
        omega
      rw [pushChars_cons, ih _ (by rwa [pushChar_tlen_of_full s ch hfull]), htrunc, decide_eq_true hdrop,
        Bool.true_or, Bool.or_true]

/-- Settles O8: the run goes on with the codes pushed on the cleared text buffer. -/
theorem longTextsKeepTheirFirstFourteenCodes : Obligations.LongTextsKeepTheirFirstFourteenCodes := by
  unfold Obligations.LongTextsKeepTheirFirstFourteenCodes
  intro codes s
  have hroom : s.clearText.tlen.toNat ≤ 14 := by simp
  have hbit (b : Nat) (hb : b ≠ 2) :
      (s.clearText.pushChars codes).status.getLsbD b = s.status.getLsbD b := by
    rw [pushChars_keeps (·.status.getLsbD b) (pushChar_status_bit_of_ne b hb), clearText_status,
      clearTrunc_bit, bne_iff_ne.mpr hb, Bool.and_true]
  refine ⟨s.clearText.pushChars codes, runCommands_txput codes s.clearText, ?_, ?_, hbit 0 (by decide),
    hbit 1 (by decide), pushChars_keeps State.res pushChar_res _ codes,
    sameMask_of_eq (pushChars_keeps State.mask pushChar_mask _ codes),
    sameSrc_of_eq (pushChars_keeps State.src pushChar_src _ codes),
    pushChars_keeps State.hout pushChar_hout _ codes⟩
  · rw [pushChars_text _ codes hroom, clearText_text, List.nil_append]
  · have hclear : s.clearText.trunc = false := by
      rw [State.trunc, clearText_status, clearTrunc_bit, bne_self_eq_false, Bool.and_false]
    rw [pushChars_trunc _ codes hroom, hclear, clearText_tlen]
    simp

end Sys2Proof.Machine

/-! PROOFS. Encoding: the word of each command as its fields side by side, and that decoding and encoding undo each other (30_encoding.md R71 to R78). -/

namespace Sys2Proof.Machine

/-! ### Words as fields side by side -/

theorem setWidth_zero_append {k n : Nat} (x : BitVec n) : (0#k ++ x).setWidth 32 = x.setWidth 32 := by
  refine BitVec.eq_of_getLsbD_eq fun i _ => ?_
  have hhigh (h : ¬i < n) : x.getLsbD i = false := BitVec.getLsbD_of_ge x i (not_lt.mp h)
  by_cases h : i < n <;> simp [BitVec.getLsbD_append, h, hhigh]

/-- Shifting and oring, as the assembler does, puts two fields side by side (R72, R78). -/
theorem setWidth_append_eq_or {m n : Nat} (hi : BitVec m) (lo : BitVec n) :
    (hi ++ lo).setWidth 32 = hi.setWidth 32 <<< n ||| lo.setWidth 32 := by
  refine BitVec.eq_of_getLsbD_eq fun i hi' => ?_
  have hlo (h : ¬i < n) : lo.getLsbD i = false := BitVec.getLsbD_of_ge lo i (not_lt.mp h)
  by_cases h : i < n <;> simp [BitVec.getLsbD_append, hi', h, hlo]

/-- An opcode over the 24 bits of its operands. -/
theorem opcode_append_eq_or (op : Byte) (rest : BitVec 24) :
    op ++ rest = op.setWidth 32 <<< 24 ||| rest.setWidth 32 := by
  rw [← setWidth_append_eq_or, BitVec.setWidth_eq]

/-- An opcode, a middle field of 16 bits and a low byte. -/
theorem opcode_append_append_eq_or (op : Byte) (mid : Addr) (lo : Byte) :
    op ++ mid ++ lo = op.setWidth 32 <<< 16 <<< 8 ||| mid.setWidth 32 <<< 8 ||| lo.setWidth 32 := by
  rw [← BitVec.shiftLeft_or_distrib, ← setWidth_append_eq_or, ← setWidth_append_eq_or, BitVec.setWidth_eq]

theorem eq_opcode_append_iff (w : Word) (op : Byte) (rest : BitVec 24) :
    w = op ++ rest ↔ opField w = op ∧ w.extractLsb' 0 24 = rest := by
  have hsplit := extractLsb'_eq_append_iff w 0 op rest
  rwa [BitVec.extractLsb'_eq_self] at hsplit

theorem eq_opcode_append_append_iff (w : Word) (op : Byte) (mid : Addr) (lo : Byte) :
    w = op ++ mid ++ lo ↔ opField w = op ∧ addrField w = mid ∧ lowByte w = lo := by
  have hsplit := extractLsb'_eq_append_iff w 0 (op ++ mid) lo
  rw [BitVec.extractLsb'_eq_self] at hsplit
  rw [hsplit, extractLsb'_eq_append_iff w 8 op mid, and_assoc]
  rfl

/-! ### The word of each command -/

theorem encode_txput_eq_append (ch : Byte) : encode (.txput ch) = 0x02#8 ++ 0#16 ++ ch := by
  rw [opcode_append_append_eq_or]
  rfl

theorem encode_mrd_eq_append (row col : Byte) : encode (.mrd row col) = 0x04#8 ++ (0#8 ++ row) ++ col := by
  rw [opcode_append_append_eq_or, setWidth_zero_append]
  rfl

theorem encode_glu_eq_append (ch row : Byte) : encode (.glu ch row) = 0x05#8 ++ (0#8 ++ row) ++ ch := by
  rw [opcode_append_append_eq_or, setWidth_zero_append]
  rfl

theorem encode_swr_eq_append (addr : Addr) (b : Byte) : encode (.swr addr b) = 0x10#8 ++ addr ++ b := by
  rw [opcode_append_append_eq_or]
  rfl

theorem encode_srd_eq_append (addr : Addr) : encode (.srd addr) = 0x11#8 ++ addr ++ 0#8 := by
  rw [opcode_append_append_eq_or]
  exact BitVec.or_zero.symm

theorem encode_hxrec_eq_append (addr : Addr) (n : BitVec 5) :
    encode (.hxrec addr n) = 0x12#8 ++ addr ++ (0#3 ++ n) := by
  rw [opcode_append_append_eq_or, setWidth_zero_append]
  rfl

theorem encode_encode_eq_append (len : BitVec 17) : encode (.encode len) = 0x14#8 ++ (0#7 ++ len) := by
  rw [opcode_append_eq_or, setWidth_zero_append]
  rfl

/-! ### Decoding and encoding -/

/-- The middle field of MRD and GLU: eight reserved bits over the row (R72). -/
theorem addrField_eq_zero_append_iff (w : Word) (row : Byte) :
    addrField w = 0#8 ++ row ↔ w.extractLsb' 16 8 = 0#8 ∧ rowField w = row :=
  extractLsb'_eq_append_iff w 8 0#8 row

/-- The low byte of HXREC: three reserved bits over the count (R72). -/
theorem lowByte_eq_zero_append_iff (w : Word) (n : BitVec 5) :
    lowByte w = 0#3 ++ n ↔ w.extractLsb' 5 3 = 0#3 ∧ countField w = n :=
  extractLsb'_eq_append_iff w 0 0#3 n

/-- Each command has one word: a word decodes to a command exactly when it is that command's (R71 to R75). -/
theorem decode_eq_ok_iff (w : Word) (i : Instr) : decode w = .ok i ↔ w = encode i := by
  cases i with
  | txclr => exact decode_txclr_iff_word w
  | txput ch =>
    rw [decode_txput_iff, encode_txput_eq_append, eq_opcode_append_append_iff]
    rfl
  | render =>
    rw [decode_render_iff]
    exact (eq_opcode_append_zero_iff w 0x03#8).symm
  | mrd row col =>
    rw [decode_mrd_iff, encode_mrd_eq_append, eq_opcode_append_append_iff, addrField_eq_zero_append_iff, and_assoc]
  | glu ch row =>
    rw [decode_glu_iff, encode_glu_eq_append, eq_opcode_append_append_iff, addrField_eq_zero_append_iff, and_assoc,
      and_comm (a := lowByte w = ch)]
  | swr addr b => rw [decode_swr_iff, encode_swr_eq_append, eq_opcode_append_append_iff]
  | srd addr =>
    rw [decode_srd_iff, encode_srd_eq_append, eq_opcode_append_append_iff, and_comm (a := addrField w = addr)]
    rfl
  | hxrec addr n =>
    rw [decode_hxrec_iff, encode_hxrec_eq_append, eq_opcode_append_append_iff, lowByte_eq_zero_append_iff,
      and_left_comm (a := addrField w = addr)]
  | hxeof =>
    rw [decode_hxeof_iff]
    exact (eq_opcode_append_zero_iff w 0x13#8).symm
  | encode len =>
    have hrest : w.extractLsb' 0 24 = 0#7 ++ len ↔ w.extractLsb' 17 7 = 0#7 ∧ lenField w = len :=
      extractLsb'_eq_append_iff w 0 0#7 len
    rw [decode_encode_iff, encode_encode_eq_append, eq_opcode_append_iff, hrest]

/-- Settles O1: the word of a command is the one that decodes to it. -/
theorem decodeOfEncodeIsTheCommand : Obligations.DecodeOfEncodeIsTheCommand := by
  unfold Obligations.DecodeOfEncodeIsTheCommand
  exact fun i => (decode_eq_ok_iff (encode i) i).mpr rfl

/-- Settles O2: a word that decodes to a command is that command's. -/
theorem encodeOfDecodeIsTheWord : Obligations.EncodeOfDecodeIsTheWord := by
  unfold Obligations.EncodeOfDecodeIsTheWord
  exact fun w i h => ((decode_eq_ok_iff w i).mp h).symm

/-- Settles O4: each worked word is the word of its command. -/
theorem workedEncodingsDecode : Obligations.WorkedEncodingsDecode := by
  unfold Obligations.WorkedEncodingsDecode
  simp only [decode_eq_ok_iff]
  decide

end Sys2Proof.Machine

/-! PROOFS. HEX files: the end-of-file record, ENCODE as its record commands, the lengths of what is appended, the reader of HEX files, and loading a buffer before encoding it (43_hex.md R184 to R189, 42_source.md R160). -/

namespace Sys2Proof.Machine

/-! ### HXEOF -/

/-- Settles O22: HXEOF has the one word of its opcode, and goes on with the end-of-file record appended. -/
theorem hxeofAppendsTheEndOfFileRecord : Obligations.HxeofAppendsTheEndOfFileRecord := by
  unfold Obligations.HxeofAppendsTheEndOfFileRecord
  refine ⟨fun w => decode_eq_ok_iff w .hxeof, fun w hop hres => ?_,
    fun s => ⟨s.emit eofRecord, rfl, rfl, emit_frame s _⟩, by decide⟩
  have hd : decode w = .error .reservedBits :=
    decode_reserved w (.inr (.inr (.inr (.inr (.inr (.inr (.inr (.inl ⟨hop, hres⟩))))))))
  exact raisesIll_of_error w _ hd

/-! ### ENCODE as its record commands -/

/-- The HXREC of chunk `k` of a buffer of `len` bytes (R188). -/
def chunkCommand (len k : Nat) : Instr :=
  .hxrec (BitVec.ofNat 16 (16 * k)) (BitVec.ofNat 5 (min 16 (len - 16 * k)))

theorem emit_emit (s : State) (cs ds : List Byte) : (s.emit cs).emit ds = s.emit (cs ++ ds) := by
  simp only [State.emit, List.append_assoc]

/-- A chunk's HXREC is in range and reads the bytes of its chunk (R185, R187). -/
theorem exec_chunkCommand (len k : Nat) (s : State) (hl : len ≤ 0x10000) (hk : 16 * k < len) :
    exec (chunkCommand len k) s = onRead (chunkRecord s.src (16 * k) (min 16 (len - 16 * k))) s.emit := by
  have ha : (BitVec.ofNat 16 (16 * k)).toNat = 16 * k := by
    rw [BitVec.toNat_ofNat]
    omega
  have hn : (BitVec.ofNat 5 (min 16 (len - 16 * k))).toNat = min 16 (len - 16 * k) := by
    rw [BitVec.toNat_ofNat]
    omega
  have hin : chunkInRange (BitVec.ofNat 16 (16 * k)) (BitVec.ofNat 5 (min 16 (len - 16 * k))) = true := by
    rw [chunkInRange_iff, OutOfRange, ha, hn]
    omega
  rw [chunkCommand, exec_hxrec_eq, hin, whenInRange_true, ha, hn]

/-- From chunk `i` on, the record commands do what ENCODE's loop does (R187, R188). -/
theorem runCommands_chunkCommands (len : Nat) (hl : len ≤ 0x10000) :
    ∀ (fuel i : Nat) (s : State), 16 * (i + fuel) < len + 16 →
      runCommands ((List.range' i fuel).map (chunkCommand len) ++ [.hxeof]) s =
        onRead (encodeFrom s.src len fuel (16 * i)) s.emit := by
  intro fuel
  induction fuel with
  | zero =>
    intro i s _
    rfl
  | succ fuel ih =>
    intro i s hi
    have hlt : 16 * i < len := by omega
    rw [List.range'_succ, List.map_cons, List.cons_append, runCommands, exec_chunkCommand len i s hl hlt,
      encodeFrom, if_pos hlt]
    cases chunkRecord s.src (16 * i) (min 16 (len - 16 * i)) with
    | error f => rfl
    | ok first =>
      simp only [onRead_ok, ih (i + 1) (s.emit first) (by omega), emit_src, Nat.mul_add_one]
      cases encodeFrom s.src len fuel (16 * i + 16) with
      | error f => rfl
      | ok rest => exact congrArg _ (emit_emit s first rest)

/-- Settles O24: the record commands do what ENCODE's loop does from chunk 0 on. -/
theorem encodeIsItsRecordCommands : Obligations.EncodeIsItsRecordCommands := by
  unfold Obligations.EncodeIsItsRecordCommands
  intro len s hl
  have hrun := runCommands_chunkCommands len.toNat hl ((len.toNat + 15) / 16) 0 s (by omega)
  rw [exec_encode_eq, (lenInRange_iff len).mpr hl, whenInRange_true, recordCommands, List.range_eq_range']
  exact hrun.symm

/-! ### Lengths -/

@[simp] theorem hex2_length (v : Byte) : (hex2 v).length = 2 := rfl

theorem dataRecord_length (a : Addr) (data : List Byte) :
    (dataRecord a data).length = 12 + 2 * data.length := by
  simp only [dataRecord, hex4, List.length_append, List.length_flatMap, hex2_length, List.map_const',
    List.sum_replicate, smul_eq_mul, List.length_cons, List.length_nil]
  omega

/-- The bytes of chunk `k` of a buffer (R187). -/
def chunk (data : List Byte) (k : Nat) : List Byte := (data.drop (16 * k)).take 16

theorem chunk_length (data : List Byte) (k : Nat) : (chunk data k).length = min 16 (data.length - 16 * k) := by
  rw [chunk, List.length_take, List.length_drop]

theorem fileText_eq (data : List Byte) :
    fileText data =
      (List.range' 0 ((data.length + 15) / 16)).flatMap (fun k => recordText (16 * k) (chunk data k)) ++ eofText := by
  rw [fileText, List.range_eq_range']
  rfl

/-- Records from chunk `i` to the last one spell 12 characters each and two for each byte left. -/
theorem chunkRecords_length (data : List Byte) :
    ∀ fuel i : Nat, data.length ≤ 16 * (i + fuel) →
      ((List.range' i fuel).flatMap fun k => recordText (16 * k) (chunk data k)).length =
        12 * fuel + 2 * (data.length - 16 * i) := by
  intro fuel
  induction fuel with
  | zero =>
    intro i hi
    simp
    omega
  | succ fuel ih =>
    intro i hi
    rw [List.range'_succ, List.flatMap_cons, List.length_append, recordText_length, chunk_length,
      ih (i + 1) (by omega)]
    omega

theorem fileText_length (data : List Byte) :
    (fileText data).length = 12 * ((data.length + 15) / 16 + 1) + 2 * data.length := by
  have heof : eofText.length = 12 := rfl
  rw [fileText_eq, List.length_append, chunkRecords_length data _ 0 (by omega), heof]
  omega

/-- Settles O25: ENCODE appends the HEX file of its bytes. -/
theorem recordAndFileLengths : Obligations.RecordAndFileLengths := by
  unfold Obligations.RecordAndFileLengths
  refine ⟨dataRecord_length, fun len s hl hw => ?_⟩
  exact ⟨_, _, exec_encode_of_written len s hl hw, rfl, by rw [fileText_length, srcBytes_length]⟩

/-! ### Reading a record back -/

theorem digitOf_hexDigits : ∀ v, v < 16 → digitOf (hexDigits.getD v 0) = some v := by decide

theorem pairsOf_spell_append (v : Nat) (hv : v < 256) (rest : List Byte) :
    pairsOf (spell v ++ rest) = (pairsOf rest).map (v :: ·) := by
  simp only [spell, List.cons_append, List.nil_append, pairsOf, digitOf_hexDigits (v / 16) (by omega),
    digitOf_hexDigits (v % 16) (by omega)]
  cases pairsOf rest with
  | none => rfl
  | some more => simp only [Nat.div_add_mod, Option.map_some]

theorem pairsOf_flatMap_spell (vs : List Nat) (h : ∀ v ∈ vs, v < 256) : pairsOf (vs.flatMap spell) = some vs := by
  induction vs with
  | nil => rfl
  | cons v vs ih =>
    obtain ⟨hv, hvs⟩ := List.forall_mem_cons.mp h
    rw [List.flatMap_cons, pairsOf_spell_append v hv, ih hvs, Option.map_some]

/-- The numbers a data record spells: count, both address bytes, type 0, the data, and the checksum (R180). -/
def recordFields (a : Nat) (data : List Byte) : List Nat :=
  let sum := data.length + a / 256 + a % 256 + 0 + (data.map BitVec.toNat).sum
  data.length :: a / 256 :: a % 256 :: 0 :: (data.map BitVec.toNat ++ [(256 - sum % 256) % 256])

/-- A data record without its LF. -/
def recordLine (a : Nat) (data : List Byte) : List Byte := 0x3A#8 :: (recordFields a data).flatMap spell

theorem recordText_eq_line (a : Nat) (data : List Byte) : recordText a data = recordLine a data ++ [lineFeed] := by
  simp [recordText, recordLine, recordFields, lineFeed, List.flatMap_append, List.flatMap_map]

theorem recordFields_lt (a : Nat) (data : List Byte) (ha : a < 0x10000) (hd : data.length < 256) :
    ∀ v ∈ recordFields a data, v < 256 := by
  intro v hv
  simp only [recordFields, List.mem_cons, List.mem_append, List.mem_map, List.not_mem_nil, or_false] at hv
  rcases hv with rfl | rfl | rfl | rfl | ⟨d, -, rfl⟩ | rfl
  · exact hd
  · omega
  · omega
  · omega
  · exact d.isLt
  · omega

/-- The reader accepts a data record's count and checksum, and reads its address and data (R182, R189). -/
theorem recordOf_recordLine (a : Nat) (data : List Byte) (ha : a < 0x10000) (hd : data.length < 256) :
    recordOf (recordLine a data) = some (a, 0, data) := by
  have hbytes : (data.map BitVec.toNat).map (BitVec.ofNat 8) = data := by
    simp [List.map_map, Function.comp_def]
  have hlen : (data.map BitVec.toNat).length = data.length := List.length_map _
  rw [recordLine, recordOf, if_pos rfl, pairsOf_flatMap_spell _ (recordFields_lt a data ha hd), recordFields]
  dsimp only
  rw [if_pos]
  · rw [← hlen, List.take_left, hbytes, Nat.div_add_mod]
  · refine ⟨by simp, ?_⟩
    rw [List.sum_append, List.sum_singleton]
    omega

/-! ### Reading a file back -/

/-- No character of a spelling is an LF. -/
theorem lineFeed_notMem_spell (v : Nat) : lineFeed ∉ spell v := by
  have hdigit (n : Nat) : lineFeed ≠ hexDigits.getD n 0 := by
    rcases Nat.lt_or_ge n 16 with h | h
    · have hall : ∀ n, n < 16 → lineFeed ≠ hexDigits.getD n 0 := by decide
      exact hall n h
    · rw [List.getD_eq_default _ _ h]
      decide
  simp only [spell, List.mem_cons, List.not_mem_nil, hdigit, or_self, not_false_eq_true]

theorem lineFeed_notMem_recordLine (a : Nat) (data : List Byte) : lineFeed ∉ recordLine a data := by
  have hcolon : lineFeed ≠ 0x3A#8 := by decide
  simp [recordLine, hcolon, lineFeed_notMem_spell]

/-- The reader cuts a text at its first LF (R183). -/
theorem linesOf_line_append (line acc rest : List Byte) (h : lineFeed ∉ line) :
    linesOf acc (line ++ lineFeed :: rest) = (linesOf [] rest).map ((acc.reverse ++ line) :: ·) := by
  induction line generalizing acc with
  | nil => simp [linesOf, lineFeed]
  | cons c line ih =>
    obtain ⟨hc, hline⟩ := not_or.mp (mt List.mem_cons.mpr h)
    have hne : c ≠ 0x0A#8 := Ne.symm hc
    simp [linesOf, hne, ih (c :: acc) hline]

/-- What the reader makes of a text that starts at address `a`. -/
def readFrom (a : Nat) (text : List Byte) : Option (List Byte) := (linesOf [] text).bind (fileData a)

/-- A data record at the address the reader expects gives its data, and the reader goes on behind it (R189). -/
theorem readFrom_recordText_append (a : Nat) (data rest : List Byte) (ha : a < 0x10000) (hd : data.length < 256) :
    readFrom a (recordText a data ++ rest) = (readFrom (a + data.length) rest).map (data ++ ·) := by
  rw [readFrom, recordText_eq_line, List.append_assoc, List.singleton_append,
    linesOf_line_append _ _ _ (lineFeed_notMem_recordLine a data), readFrom]
  cases linesOf [] rest with
  | none => rfl
  | some lines =>
    simp only [Option.map_some, List.reverse_nil, List.nil_append, Option.bind_some, fileData,
      recordOf_recordLine a data ha hd, if_true]

/-- The end-of-file record ends the file at any address (R184, R189). -/
theorem readFrom_eofText (a : Nat) : readFrom a eofText = some [] := rfl

/-- The records from chunk `i` on are read back as the bytes from there on. The reader stands at the
chunk's address, or no chunk is left. -/
theorem readFrom_chunkRecords (data : List Byte) :
    ∀ fuel i a : Nat, 16 * (i + fuel) ≤ 0x10000 → data.length ≤ 16 * (i + fuel) →
      16 * (i + fuel) < data.length + 16 → (a = 16 * i ∨ fuel = 0) →
      readFrom a ((List.range' i fuel).flatMap (fun k => recordText (16 * k) (chunk data k)) ++ eofText) =
        some (data.drop (16 * i)) := by
  intro fuel
  induction fuel with
  | zero =>
    intro i a _ hend _ _
    rw [List.drop_eq_nil_of_le (by omega)]
    exact readFrom_eofText a
  | succ fuel ih =>
    intro i a hmax hend hlast ha
    obtain rfl : a = 16 * i := by omega
    have hlen := chunk_length data i
    have hsplit : chunk data i ++ data.drop (16 * (i + 1)) = data.drop (16 * i) := by
      rw [chunk, Nat.mul_add_one, ← List.drop_drop, List.take_append_drop]
    rw [List.range'_succ, List.flatMap_cons, List.append_assoc,
      readFrom_recordText_append _ _ _ (by omega) (by omega),
      ih (i + 1) _ (by omega) (by omega) (by omega) (by omega), Option.map_some, hsplit]

/-- A HEX file is read back as the bytes it was made of (R189). -/
theorem readHexFile_fileText (data : List Byte) (h : data.length ≤ 0x10000) :
    readHexFile (fileText data) = some data := by
  rw [fileText_eq]
  exact readFrom_chunkRecords data _ 0 0 (by omega) (by omega) (by omega) (.inl rfl)

/-- Settles O26: ENCODE appends the HEX file of its bytes, which the reader reads back. -/
theorem encodeIsLossless : Obligations.EncodeIsLossless := by
  unfold Obligations.EncodeIsLossless
  intro len s hl hw
  exact ⟨_, _, exec_encode_of_written len s hl hw, rfl, readHexFile_fileText _ (by rwa [srcBytes_length])⟩

/-! ### Loading a buffer -/

theorem runCommands_nil_next {s t : State} (h : runCommands [] s = .next t) : s = t := Host.Outcome.next.inj h

/-- A run that goes on goes on at its first command, and from there with the others. -/
theorem runCommands_cons_next {i : Instr} {is : List Instr} {s t : State} (h : runCommands (i :: is) s = .next t) :
    ∃ x, exec i s = .next x ∧ runCommands is x = .next t := by
  rw [runCommands] at h
  cases hx : exec i s with
  | next x =>
    rw [hx] at h
    exact ⟨x, rfl, h⟩
  | fault f => simp [hx] at h
  | refused r => simp [hx] at h

/-- Commands one after another are the first of them, then the rest (R70). -/
theorem runCommands_append_of_next (is js : List Instr) (s t : State) (h : runCommands is s = .next t) :
    runCommands (is ++ js) s = runCommands js t := by
  induction is generalizing s with
  | nil => rw [List.nil_append, runCommands_nil_next h]
  | cons i is ih =>
    obtain ⟨x, hx, hrest⟩ := runCommands_cons_next h
    simp only [List.cons_append, runCommands, hx, ih x hrest]

theorem runCommands_singleton (i : Instr) (s : State) : runCommands [i] s = exec i s := by
  rw [runCommands]
  cases exec i s <;> rfl

/-- One SWR a byte, from address 0 up (R160). -/
def loadBytes (bytes : List Byte) (n : Nat) : List Instr :=
  (List.range n).map fun j => .swr (BitVec.ofNat 16 j) (bytes.getD j 0)

/-- Loading `n` bytes goes on in every state, writes them to the Source Memory and changes nothing else
(R160, R161). -/
theorem runCommands_loadBytes (bytes : List Byte) (s : State) :
    ∀ n, n ≤ 0x10000 → ∃ m : Memory, runCommands (loadBytes bytes n) s = .next { s with src := m } ∧
      ∀ j, j < n → memRead m j = some (bytes.getD j 0) := by
  intro n
  induction n with
  | zero =>
    intro _
    exact ⟨s.src, rfl, by simp⟩
  | succ n ih =>
    intro hn
    obtain ⟨m, hrun, hread⟩ := ih (by omega)
    have ha : (BitVec.ofNat 16 n).toNat = n := by
      rw [BitVec.toNat_ofNat]
      omega
    refine ⟨memWrite m n (bytes.getD n 0), ?_, fun j hj => ?_⟩
    · rw [loadBytes, List.range_succ, List.map_append, ← loadBytes, runCommands_append_of_next _ _ _ _ hrun]
      simp only [List.map_singleton, runCommands, exec_swr_eq, State.srcWrite, ha]
    · rw [memRead_memWrite]
      split
      next h => rw [h]
      next h => exact hread j (by omega)

/-- Settles O27: the SWRs leave the buffer's bytes in the Source Memory, and ENCODE appends their file. -/
theorem loadingThenEncodingGivesTheBuffersFile : Obligations.LoadingThenEncodingGivesTheBuffersFile := by
  unfold Obligations.LoadingThenEncodingGivesTheBuffersFile
  intro bytes s hlen
  obtain ⟨m, hrun, hread⟩ := runCommands_loadBytes bytes s bytes.length hlen
  have hl : (BitVec.ofNat 17 bytes.length).toNat = bytes.length := by
    rw [BitVec.toNat_ofNat]
    omega
  have hw : Written m 0 bytes.length := fun j hj => by simp [hread j hj]
  have hbytes : srcBytes m 0 bytes.length = bytes := by
    refine List.ext_getElem (srcBytes_length ..) fun j _ hj => ?_
    simp [srcBytes, hread j hj, hj]
  have hencode := exec_encode_of_written (BitVec.ofNat 17 bytes.length) { s with src := m }
  simp only [hl, hbytes] at hencode
  refine ⟨State.emit { s with src := m } (fileText bytes), ?_, rfl, rfl, rfl, sameText_refl s, sameMask_refl s⟩
  rw [← loadBytes, runCommands_append_of_next _ _ _ _ hrun, runCommands_singleton]
  exact hencode hlen hw

end Sys2Proof.Machine

/-! PROOFS. The font and the renderer: case folding, the glyphs that are read, the layout report, the exact lit pixels and the ranges of the walk (40_font.md R100 to R106, 41_render.md R123 to R136). -/

namespace Sys2Proof.Machine

/-! ### Case folding -/

theorem isSpace_norm (b : Byte) : isSpace (norm b) = isSpace b := by rw [isSpace, norm_norm, isSpace]

theorem isNarrow_norm (b : Byte) : isNarrow (norm b) = isNarrow b := by rw [isNarrow, norm_norm, isNarrow]

theorem isDrawn_norm (b : Byte) : isDrawn (norm b) = isDrawn b := by
  rw [isDrawn, isDefined_norm, isSpace_norm, isDrawn]

theorem drawnWidth_norm (b : Byte) : drawnWidth (norm b) = drawnWidth b := by
  rw [drawnWidth, isNarrow_norm, drawnWidth]

theorem placeCursor_norm (b : Byte) (cur : Int) : placeCursor (norm b) cur = placeCursor b cur := by
  rw [placeCursor, isNarrow_norm, placeCursor]

theorem advanceCursor_norm (b : Byte) (cur : Int) : advanceCursor (norm b) cur = advanceCursor b cur := by
  simp only [advanceCursor, isSpace_norm, isDefined_norm, placeCursor_norm]

theorem drawnCount_map_norm (text : List Byte) : drawnCount (text.map norm) = drawnCount text := by
  rw [drawnCount, List.countP_map, drawnCount]
  exact List.countP_congr fun b _ => by rw [Function.comp_apply, isDrawn_norm]

theorem narrowCount_map_norm (text : List Byte) : narrowCount (text.map norm) = narrowCount text := by
  rw [narrowCount, List.countP_map, narrowCount]
  exact List.countP_congr fun b _ => by rw [Function.comp_apply, isDefined_norm, isNarrow_norm]

theorem textWidth_map_norm (text : List Byte) : textWidth (text.map norm) = textWidth text := by
  rw [textWidth, drawnCount_map_norm, narrowCount_map_norm, textWidth]

theorem startOffset_map_norm (text : List Byte) : startOffset (text.map norm) = startOffset text := by
  rw [startOffset, textWidth_map_norm, startOffset]

theorem walkLine_map_norm (rom : GlyphRom) (line : Nat) (text : List Byte) (cur : Int) (m : Mask) :
    walkLine rom line (text.map norm) cur m = walkLine rom line text cur m := by
  induction text generalizing cur m with
  | nil => rfl
  | cons t ts ih =>
    simp only [List.map_cons, walkLine, isDrawn_norm, norm_norm, placeCursor_norm, drawnWidth_norm,
      advanceCursor_norm, ih]

theorem glyphLookup_norm (rom : GlyphRom) (b : Byte) : glyphLookup rom (norm b) = glyphLookup rom b := by
  rw [glyphLookup, isDefined_norm, norm_norm, glyphLookup]

/-- Settles O10: every class of codes, and every glyph, is looked up by the folded code. -/
theorem foldingTheTextFirstChangesNothing : Obligations.FoldingTheTextFirstChangesNothing := by
  unfold Obligations.FoldingTheTextFirstChangesNothing
  refine fun rom text ch row => ⟨?_, ?_, ?_⟩
  · simp only [renderMask, startOffset_map_norm, walkLine_map_norm]
  · simp only [layoutReport, narrowCount_map_norm, drawnCount_map_norm, textWidth_map_norm, startOffset_map_norm]
  · simp only [gluReport, glyphLookup_norm, isSpace_norm, isNarrow_norm]

/-! ### The glyphs that are read -/

theorem supportedCodes_contains_norm (b : Byte) : supportedCodes.contains (norm b).toNat = isDefined b := by
  revert b; decide +revert

theorem isDefined_of_isDrawn (b : Byte) (h : isDrawn b = true) : isDefined b = true := by
  rw [isDrawn, Bool.and_eq_true] at h
  exact h.1

/-- Two fonts show the same bits of the 38 named glyphs, as far as `width` goes (R10, R104). -/
def NamedGlyphsAgree (width : Byte → Nat) (rom₁ rom₂ : GlyphRom) : Prop :=
  ∀ (n : Byte) (r c : Nat), supportedCodes.contains n.toNat = true → n ≠ 0x20#8 → r < 7 →
    c < width n → glyphBit (rom₁ n) r c = glyphBit (rom₂ n) r c

theorem glyphBit_outside (g : Glyph) (r c : Nat) (h : ¬(r < 7 ∧ c < 5)) : glyphBit g r c = false := dif_neg h

/-- Such fonts show the same bits of every defined code, the space among them. -/
theorem NamedGlyphsAgree.glyphOf_bit {width : Byte → Nat} {rom₁ rom₂ : GlyphRom}
    (hag : NamedGlyphsAgree width rom₁ rom₂) (b : Byte) (r c : Nat) (hb : isDefined b = true)
    (hr : r < 7) (hc : c < width (norm b)) :
    glyphBit (glyphOf rom₁ (norm b)) r c = glyphBit (glyphOf rom₂ (norm b)) r c := by
  by_cases hspace : norm b = 0x20#8
  · simp only [glyphOf, hspace, if_true]
  · simp only [glyphOf, hspace, if_false]
    exact hag (norm b) r c (supportedCodes_contains_norm b ▸ hb) hspace hr hc

theorem NamedGlyphsAgree.renderMask_eq {rom₁ rom₂ : GlyphRom} (hag : NamedGlyphsAgree codeWidth rom₁ rom₂)
    (text : List Byte) : renderMask rom₁ text = renderMask rom₂ text := by
  refine mask_ext _ _ fun r c hr _ => ?_
  rw [Bool.eq_iff_iff, renderMask_pixel, renderMask_pixel]
  refine and_congr_right fun _ => and_congr_right fun _ => exists_congr fun i => exists_congr fun b =>
    exists_congr fun k => and_congr_right fun _ => and_congr_right fun hdrawn => and_congr_right fun hk =>
    and_congr_right fun _ => ?_
  rw [hag.glyphOf_bit b r k (isDefined_of_isDrawn b hdrawn) hr (by rwa [codeWidth_eq, drawnWidth_norm])]

theorem NamedGlyphsAgree.gluReport_eq {rom₁ rom₂ : GlyphRom} (hag : NamedGlyphsAgree (fun _ => 5) rom₁ rom₂)
    (ch : Byte) (row : Nat) : gluReport rom₁ ch row = gluReport rom₂ ch row := by
  cases hdefined : isDefined ch with
  | false => rw [gluReport_of_undefined rom₁ ch row hdefined, gluReport_of_undefined rom₂ ch row hdefined]
  | true =>
    have hbit (c : Nat) : glyphBit (glyphOf rom₁ (norm ch)) row c = glyphBit (glyphOf rom₂ (norm ch)) row c := by
      by_cases hin : row < 7 ∧ c < 5
      · exact hag.glyphOf_bit ch row c hdefined hin.1 hin.2
      · rw [glyphBit_outside _ _ _ hin, glyphBit_outside _ _ _ hin]
    simp only [gluReport, glyphLookup, hdefined, if_true, hbit]

/-- Settles O11: RENDER and GLU show glyph bits of defined codes alone, RENDER within the drawn width. -/
theorem onlyTheNamedGlyphsAreRead : Obligations.OnlyTheNamedGlyphsAreRead := by
  unfold Obligations.OnlyTheNamedGlyphsAreRead
  exact fun rom₁ rom₂ => ⟨NamedGlyphsAgree.renderMask_eq, NamedGlyphsAgree.gluReport_eq⟩

/-! ### The layout report -/

/-- W of at most 14 codes (R124, R131). -/
theorem textWidth_range (text : List Byte) (h : text.length ≤ 14) :
    -2 ≤ textWidth text ∧ textWidth text ≤ 96 := by
  obtain ⟨hnarrow, hdrawn⟩ := counts_le text
  rw [textWidth]
  omega

/-- The four fields of RES after RENDER (R133). -/
theorem layoutReport_fields (text : List Byte) :
    (layoutReport text).extractLsb' 24 8 = BitVec.ofNat 8 (narrowCount text) ∧
    (layoutReport text).extractLsb' 16 8 = BitVec.ofNat 8 (drawnCount text) ∧
    (layoutReport text).extractLsb' 8 8 = BitVec.ofInt 8 (textWidth text) ∧
    (layoutReport text).extractLsb' 0 8 = BitVec.ofInt 8 (startOffset text) := by
  have hwhole : (layoutReport text).extractLsb' 0 32 = layoutReport text := BitVec.extractLsb'_eq_self
  obtain ⟨hupper, hS⟩ := (extractLsb'_eq_append_iff (m := 24) (n := 8) (layoutReport text) 0 _ _).mp hwhole
  obtain ⟨hupper, hW⟩ := (extractLsb'_eq_append_iff (m := 16) (n := 8) (layoutReport text) 8 _ _).mp hupper
  obtain ⟨hK, hD⟩ := (extractLsb'_eq_append_iff (m := 8) (n := 8) (layoutReport text) 16 _ _).mp hupper
  exact ⟨hK, hD, hW, hS⟩

/-- What RENDER reports of at most 14 codes, as numbers (R131, R133). -/
theorem layoutReport_values (text : List Byte) (h : text.length ≤ 14) :
    ((layoutReport text).extractLsb' 24 8).toNat = narrowCount text ∧
    ((layoutReport text).extractLsb' 16 8).toNat = drawnCount text ∧
    ((layoutReport text).extractLsb' 8 8).toInt = textWidth text ∧
    (((layoutReport text).extractLsb' 0 8).toNat : Int) = startOffset text := by
  obtain ⟨hK, hD, hW, hS⟩ := layoutReport_fields text
  obtain ⟨hnarrow, hdrawn⟩ := counts_le text
  obtain ⟨hWlow, hWhigh⟩ := textWidth_range text h
  obtain ⟨-, hSlow, hShigh⟩ := startOffset_eq text h
  rw [hK, hD, hW, hS]
  refine ⟨?_, ?_, ?_, ?_⟩
  · rw [BitVec.toNat_ofNat]
    omega
  · rw [BitVec.toNat_ofNat]
    omega
  · exact BitVec.toInt_ofInt_eq_self (by decide) (by omega) (by omega)
  · rw [BitVec.toNat_ofInt]
    omega

/-- Settles O13: RENDER has the one word of its opcode, and goes on with the mask and RES written. -/
theorem renderReportsItsLayout : Obligations.RenderReportsItsLayout := by
  unfold Obligations.RenderReportsItsLayout
  refine ⟨fun w => decode_eq_ok_iff w .render, fun w hop hres => ?_, fun s => ?_⟩
  · exact raisesIll_of_error w _ (decode_reserved w (.inr (.inr (.inl ⟨hop, hres⟩))))
  · have hlen := text_length_le s
    obtain ⟨hK, hD, hW, hS⟩ := layoutReport_values s.text hlen
    refine ⟨_, exec_render_eq s, ?_, ?_, ?_, ?_, rfl, sameText_refl s, sameSrc_refl s, rfl, sameHost_refl s⟩
    · exact hS.trans (startOffset_eq s.text hlen).1
    · rw [← drawnCount_eq, ← narrowCount_eq]
      exact hW
    · exact hD.trans (drawnCount_eq s.text)
    · exact hK.trans (narrowCount_eq s.text)

/-! ### The lit pixels -/

theorem renderMask_pixel_iff_glyphLands (rom : GlyphRom) (text : List Byte) (r c : Nat) (hlen : text.length ≤ 14)
    (hr : r < 7) (hc : c < 128) : maskRead (renderMask rom text) r c = true ↔ GlyphLands rom text r c := by
  simp only [renderMask_pixel, GlyphLands, hr, hc, true_and, walkColumn_eq text _ hlen, codeDrawn_eq, codeWidth_eq,
    fontBit_eq]

/-- Settles O14: on a text of at most 14 codes the walk's columns are those of the closed form. -/
theorem renderDrawsTheUnionOfItsGlyphs : Obligations.RenderDrawsTheUnionOfItsGlyphs := by
  unfold Obligations.RenderDrawsTheUnionOfItsGlyphs
  exact ⟨renderMask_pixel_iff_glyphLands, fun s => ⟨_, exec_render_eq s, fun r c =>
    renderMask_pixel_iff_glyphLands Config.glyphRom s.text r c (text_length_le s)⟩⟩

/-! ### The ranges of the walk -/

/-- Narrow codes are drawn, drawn codes are defined (R104, R123). -/
theorem class_counts_le (text : List Byte) :
    text.countP isNarrow ≤ drawnCount text ∧ drawnCount text ≤ text.countP isDefined ∧
      text.countP isDefined ≤ text.length :=
  ⟨List.countP_mono_left fun b _ => isDrawn_of_isNarrow b, List.countP_mono_left fun b _ => isDefined_of_isDrawn b,
    List.countP_le_length⟩

theorem narrowCount_eq_isNarrow (text : List Byte) : narrowCount text = text.countP isNarrow := by
  rw [narrowCount_eq]
  exact List.countP_congr fun b _ => by rw [codeNarrow_eq]

theorem drawnCount_append_cons (before after : List Byte) (t : Byte) (h : isDrawn t = true) :
    drawnCount (before ++ t :: after) = drawnCount before + drawnCount after + 1 := by
  simp only [drawnCount, List.countP_append, List.countP_cons, h, if_true, Nat.add_assoc]

/-- The cursor behind the first codes of a text of at most 14 (R131). -/
theorem cursorAfter_range (before after : List Byte) (h : (before ++ after).length ≤ 14) :
    17 ≤ cursorAfter before (startOffset (before ++ after)) ∧
      cursorAfter before (startOffset (before ++ after)) ≤ 66 + 7 * before.length := by
  obtain ⟨-, hlow, hhigh⟩ := startOffset_eq _ h
  obtain ⟨hnarrow, hdrawn, hdefined⟩ := class_counts_le before
  rw [cursorAfter_eq]
  omega

/-- Where the walk draws a character of at most 14: from column 16, and up to column 157 (R131). -/
theorem placeCursor_range (before after : List Byte) (t : Byte) (h : (before ++ t :: after).length ≤ 14)
    (ht : isDrawn t = true) :
    16 ≤ placeCursor t (cursorAfter before (startOffset (before ++ t :: after))) ∧
      placeCursor t (cursorAfter before (startOffset (before ++ t :: after))) + drawnWidth t ≤ 158 := by
  have hD := drawnCount_append_cons before after t ht
  have hW := textWidth_range _ h
  obtain ⟨hnb, hdb, hfb⟩ := class_counts_le before
  obtain ⟨hna, -, -⟩ := class_counts_le after
  have hK : narrowCount (before ++ t :: after) =
      before.countP isNarrow + (after.countP isNarrow + if isNarrow t = true then 1 else 0) := by
    rw [narrowCount_eq_isNarrow, List.countP_append, List.countP_cons]
  have hS : startOffset (before ++ t :: after) = 16 + (96 - textWidth (before ++ t :: after)) / 2 + 1 := by
    rw [startOffset, Int.tdiv_eq_ediv_of_nonneg (by omega)]
  rw [List.length_append, List.length_cons] at h
  rw [textWidth, hD, hK] at hS hW
  rw [cursorAfter_eq, hS, placeCursor, drawnWidth]
  cases hnarrow : isNarrow t with
  | true =>
    simp only [hnarrow, if_true] at hW ⊢
    omega
  | false =>
    simp only [hnarrow, Bool.false_eq_true, if_false] at hW ⊢
    omega

/-- Drawing a glyph row changes pixels of its row and its columns alone (R128, R132). -/
theorem drawGlyphRow_changed (g : Glyph) (line : Nat) (cur : Int) (wd : Nat) (m : Mask) (r c : Nat)
    (h : maskRead (drawGlyphRow g line cur wd m) r c ≠ maskRead m r c) :
    r = line ∧ ∃ col : Nat, col < wd ∧ cur + col = c := by
  have hpixel := drawGlyphRow_pixel g line cur wd m r c
  by_cases hdrawn : r = line ∧ r < 7 ∧ c < 128 ∧ ∃ k, k < wd ∧ cur + (k : Int) = c ∧ glyphBit g line k = true
  · obtain ⟨hr, -, -, k, hk, hcol, -⟩ := hdrawn
    exact ⟨hr, k, hk, hcol⟩
  · rw [or_iff_left hdrawn, ← Bool.eq_iff_iff] at hpixel
    exact absurd hpixel h

/-- A walk reaches each character at the cursor behind those before it. -/
theorem walkLine_at_character (rom : GlyphRom) (line : Nat) (before after : List Byte) (t : Byte) (cur : Int)
    (m : Mask) :
    walkLine rom line (before ++ t :: after) cur m =
      walkLine rom line after (cursorAfter (before ++ [t]) cur)
        (if isDrawn t then
          drawGlyphRow (glyphOf rom (norm t)) line (placeCursor t (cursorAfter before cur)) (drawnWidth t)
            (walkLine rom line before cur m)
        else walkLine rom line before cur m) := by
  rw [walkLine_append, walkLine, cursorAfter_append, cursorAfter_cons, cursorAfter_nil]

/-- Settles O15: the counts, W and S from the layout, the cursor and the columns from the walk's closed
form, each by arithmetic over how many codes of each class stand before and after. -/
theorem renderStaysInItsRanges : Obligations.RenderStaysInItsRanges := by
  unfold Obligations.RenderStaysInItsRanges
  refine ⟨fun text hlen => ?_, by decide, by decide, walkLine_at_character, drawGlyphRow_changed, fun s => ?_⟩
  · obtain ⟨hnarrow, hdrawn⟩ := counts_le text
    obtain ⟨hWlow, hWhigh⟩ := textWidth_range text hlen
    obtain ⟨-, hSlow, hShigh⟩ := startOffset_eq text hlen
    refine ⟨hnarrow, by omega, hWlow, hWhigh, Int.tdiv_eq_ediv_of_nonneg (by omega), hSlow, hShigh, ?_, ?_⟩
    · rintro before after rfl
      have hcursor := cursorAfter_range before after hlen
      rw [List.length_append] at hlen
      omega
    · rintro before after t _ rfl ht rfl
      have hplace := placeCursor_range before after t hlen ht
      have hwidth := drawnWidth_le t
      refine ⟨by omega, by omega, fun col hcol => ?_⟩
      omega
  · have hlen := text_length_le s
    obtain ⟨hK, hD, hW, hS⟩ := layoutReport_values s.text hlen
    obtain ⟨hnarrow, hdrawn⟩ := counts_le s.text
    obtain ⟨-, hSlow, hShigh⟩ := startOffset_eq s.text hlen
    refine ⟨_, exec_render_eq s, ?_⟩
    dsimp only
    rw [hK, hD, hW]
    have hWrange := textWidth_range s.text hlen
    omega

/-! ### The keep-out columns -/

/-- The column a walk draws a character at is where its cursor places it. -/
theorem walkColumn_eq_placeCursor (text : List Byte) (cur : Int) (i : Nat) (b : Byte) (h : text[i]? = some b) :
    walkColumn text cur i = placeCursor b (cursorAfter (text.take i) cur) := by
  rw [walkColumn, List.take_add_one, h, cursorAfter_eq, placeCursor, Option.toList_some, List.countP_append,
    List.countP_singleton]
  split <;> push_cast <;> ring

/-- RENDER draws nothing in columns 0 to 15 (R6, R131). -/
theorem renderMask_keeps_out (rom : GlyphRom) (text : List Byte) (hlen : text.length ≤ 14) (r c : Nat)
    (hc : c < 16) : maskRead (renderMask rom text) r c = false := by
  rw [← Bool.not_eq_true, renderMask_pixel]
  rintro ⟨-, -, i, b, k, hi, hdrawn, -, hcol, -⟩
  obtain ⟨hlt, hb⟩ := List.getElem?_eq_some_iff.mp hi
  have hsplit : text.take i ++ b :: text.drop (i + 1) = text := by
    rw [← hb, List.getElem_cons_drop, List.take_append_drop]
  have hplace := placeCursor_range (text.take i) (text.drop (i + 1)) b (by rwa [hsplit]) hdrawn
  rw [hsplit, ← walkColumn_eq_placeCursor text _ i b hi] at hplace
  omega

end Sys2Proof.Machine

/-! PROOFS. Commands and steps: where a command stops, which part of the block each command and each step writes, and the causes of the STATUS bits (10_state.md R21 to R27, 20_memory.md R53 and R58, 60_exceptions.md R220 to R233). -/

namespace Sys2Proof.Machine

/-! ### Where a command stops -/

/-- With every byte it reads written, a command goes on (R252). -/
theorem exec_goes_on_of_written (i : Instr) (s : State) (hw : Written s.src (bytesRead i).1 (bytesRead i).2) :
    ∃ t, exec i s = .next t := by
  by_cases hin : OutOfRange i
  · exact ⟨_, exec_of_outOfRange i s hin⟩
  cases i with
  | mrd row col =>
    obtain ⟨hrow, hcol⟩ := not_or.mp hin
    exact ⟨_, exec_mrd_of_inside row col s (not_lt.mp hrow) (not_lt.mp hcol)⟩
  | glu ch row => exact ⟨_, exec_glu_of_row_le ch row s (not_lt.mp hin)⟩
  | srd addr =>
    obtain ⟨b, hb⟩ := Option.ne_none_iff_exists'.mp (hw 0 Nat.one_pos)
    exact ⟨_, exec_srd_of_written addr b s hb⟩
  | hxrec addr n => exact ⟨_, exec_hxrec_of_written addr n s hin hw⟩
  | encode len => exact ⟨_, exec_encode_of_written len s (not_lt.mp hin) hw⟩
  | txclr | txput | render | swr | hxeof => exact ⟨_, rfl⟩

/-- With its operands in range, a command stops at the first unwritten byte it would read (R53, R233). -/
theorem exec_of_firstUnwritten (i : Instr) (s : State) (x : Nat) (hin : ¬OutOfRange i)
    (hx : FirstUnwritten s.src (bytesRead i).1 (bytesRead i).2 x) : exec i s = .fault (.srcUnwritten x) := by
  cases i with
  | srd addr =>
    obtain ⟨hlow, hhigh, hnone, -⟩ := hx
    obtain rfl : x = addr.toNat := by
      rw [bytesRead] at hlow hhigh
      omega
    exact exec_srd_of_unwritten addr s hnone
  | hxrec addr n => exact exec_hxrec_of_unwritten addr n s x hin hx
  | encode len => exact exec_encode_of_unwritten len s x (not_lt.mp hin) hx
  | txclr | txput | render | mrd | glu | swr | hxeof =>
    obtain ⟨hlow, hhigh, -⟩ := hx
    exact absurd hhigh (not_lt.mpr hlow)

/-- Settles O33: the bytes a command reads are all written, or have a first unwritten one. -/
theorem commandsStopOnlyOnUnwrittenBytes : Obligations.CommandsStopOnlyOnUnwrittenBytes := by
  unfold Obligations.CommandsStopOnlyOnUnwrittenBytes
  refine fun i s => ⟨?_, exec_goes_on_of_written i s, fun hnot hin t => ?_⟩
  · by_cases hin : OutOfRange i
    · exact .inl ⟨_, exec_of_outOfRange i s hin⟩
    · rcases written_or_first s.src (bytesRead i).1 (bytesRead i).2 with hw | ⟨x, hx⟩
      · exact .inl (exec_goes_on_of_written i s hw)
      · exact .inr ⟨x, exec_of_firstUnwritten i s x hin hx, hin, hx⟩
  · obtain ⟨x, hx⟩ := (written_or_first s.src _ _).resolve_left hnot
    rw [exec_of_firstUnwritten i s x hin hx]
    exact nofun

/-! ### What each command writes -/

/-- Only SWR writes the Source Memory (R27). -/
theorem exec_src_cases (i : Instr) (s t : State) (h : exec i s = .next t) :
    t.src = s.src ∨ ∃ addr b, i = .swr addr b ∧ t.src = memWrite s.src addr.toNat b := by
  rcases exec_cases i s t h with ⟨-, rfl⟩ | ⟨ch, -, rfl⟩ | ⟨-, rfl⟩ | ⟨_, -, rfl⟩ | ⟨_, -, rfl⟩ | ⟨_, -, rfl⟩ |
    ⟨addr, b, hi, rfl⟩ | ⟨_, _, _, -, -, rfl⟩ | ⟨-, rfl⟩ | ⟨_, _, -, -, rfl⟩ | ⟨-, rfl⟩
  any_goals exact .inl rfl
  · exact .inl (pushChar_src s ch)
  · exact .inr ⟨addr, b, hi, rfl⟩

/-- The commands that append to HOUT (R26). -/
def Appends (i : Instr) : Prop := (∃ addr n, i = .hxrec addr n) ∨ i = .hxeof ∨ ∃ len, i = .encode len

/-- Only HXREC, HXEOF and ENCODE change HOUT, and they append (R26). -/
theorem exec_hout_cases (i : Instr) (s t : State) (h : exec i s = .next t) :
    t.hout = s.hout ∨ ∃ out, t.hout = s.hout ++ out ∧ Appends i := by
  rcases exec_cases i s t h with ⟨-, rfl⟩ | ⟨ch, -, rfl⟩ | ⟨-, rfl⟩ | ⟨_, -, rfl⟩ | ⟨_, -, rfl⟩ | ⟨_, -, rfl⟩ |
    ⟨_, _, -, rfl⟩ | ⟨addr, n, out, hi, -, rfl⟩ | ⟨hi, rfl⟩ | ⟨len, out, hi, -, rfl⟩ | ⟨-, rfl⟩
  any_goals exact .inl rfl
  · exact .inl (pushChar_hout s ch)
  · exact .inr ⟨out, rfl, .inl ⟨addr, n, hi⟩⟩
  · exact .inr ⟨eofRecord, rfl, .inr (.inl hi)⟩
  · exact .inr ⟨out, rfl, .inr (.inr ⟨len, hi⟩)⟩

/-- The commands that write RES (R21). -/
def WritesRes (i : Instr) : Prop :=
  (∃ ch row, i = .glu ch row) ∨ i = .render ∨ (∃ row col, i = .mrd row col) ∨ ∃ addr, i = .srd addr

theorem exec_res_cases (i : Instr) (s t : State) (h : exec i s = .next t) : t.res = s.res ∨ WritesRes i := by
  rcases exec_cases i s t h with ⟨-, rfl⟩ | ⟨ch, -, rfl⟩ | ⟨hi, -⟩ | ⟨_, hi, -⟩ | ⟨_, hi, -⟩ | ⟨_, hi, -⟩ |
    ⟨_, _, -, rfl⟩ | ⟨_, _, _, -, -, rfl⟩ | ⟨-, rfl⟩ | ⟨_, _, -, -, rfl⟩ | ⟨-, rfl⟩
  · exact .inl rfl
  · exact .inl (pushChar_res s ch)
  · exact .inr (.inr (.inl hi))
  · exact .inr (.inr (.inr (.inl hi)))
  · exact .inr (.inl hi)
  · exact .inr (.inr (.inr (.inr hi)))
  all_goals exact .inl rfl

/-- Out of range a command writes no RES (R221). -/
theorem exec_changes_res (i : Instr) (s t : State) (h : exec i s = .next t) (hres : t.res ≠ s.res) :
    ¬OutOfRange i ∧ WritesRes i := by
  refine ⟨fun hout => hres ?_, (exec_res_cases i s t h).resolve_left hres⟩
  rw [exec_of_outOfRange i s hout, Host.Outcome.next.injEq] at h
  rw [← h, raise_res]

/-- Only TXCLR, and TXPUT with room, change the text buffer (R23). -/
theorem exec_changes_text (i : Instr) (s t : State) (h : exec i s = .next t) (htext : ¬SameText s t) :
    i = .txclr ∨ ∃ ch, i = .txput ch ∧ s.tlen.toNat < 14 := by
  by_cases hclr : i = .txclr
  · exact .inl hclr
  by_cases hput : ∃ ch, i = .txput ch
  · obtain ⟨ch, rfl⟩ := hput
    obtain rfl : s.pushChar ch = t := by simpa [exec, execTxput] using h
    exact .inr ⟨ch, rfl, not_le.mp fun hfull => htext (sameText_pushChar_of_full s ch hfull)⟩
  · exact absurd (exec_keeps_text i s t hclr (not_exists.mp hput) h) htext

/-- No command touches what the host has issued or read. -/
theorem exec_keeps_host (i : Instr) (s t : State) (h : exec i s = .next t) : SameHost s t := by
  rcases exec_cases i s t h with ⟨-, rfl⟩ | ⟨ch, -, rfl⟩ | ⟨-, rfl⟩ | ⟨_, -, rfl⟩ | ⟨_, -, rfl⟩ | ⟨_, -, rfl⟩ |
    ⟨_, _, -, rfl⟩ | ⟨_, _, _, -, -, rfl⟩ | ⟨-, rfl⟩ | ⟨_, _, -, -, rfl⟩ | ⟨-, rfl⟩
  · exact sameHost_refl s
  · exact ⟨pushChar_pending s ch, pushChar_received s ch⟩
  all_goals exact sameHost_refl s

/-! ### The most recent write -/

/-- What every command of a run keeps, the run keeps. -/
theorem runCommands_keeps (P : State → Prop) (is : List Instr) (s t : State)
    (hstep : ∀ i ∈ is, ∀ x y, exec i x = .next y → P x → P y) (h : runCommands is s = .next t) (hs : P s) :
    P t := by
  induction is generalizing s with
  | nil => exact runCommands_nil_next h ▸ hs
  | cons i is ih =>
    obtain ⟨hi, his⟩ := List.forall_mem_cons.mp hstep
    obtain ⟨x, hx, hrest⟩ := runCommands_cons_next h
    exact ih x his hrest (hi s x hx hs)

/-- A command that does not write an address keeps its byte (R58). -/
theorem exec_keeps_byte (i : Instr) (addr : Addr) (s t : State) (hi : ∀ v, i ≠ .swr addr v)
    (h : exec i s = .next t) : memRead t.src addr.toNat = memRead s.src addr.toNat := by
  rcases exec_src_cases i s t h with hsrc | ⟨addr', b, rfl, hsrc⟩
  · rw [hsrc]
  · have hne : addr.toNat ≠ addr'.toNat := fun he => hi b (by rw [BitVec.eq_of_toNat_eq he])
    rw [hsrc, memRead_memWrite_other _ _ _ _ hne]

/-- Settles O20: the commands between keep the byte the SWR wrote. -/
theorem srdReturnsTheMostRecentWrite : Obligations.SrdReturnsTheMostRecentWrite := by
  unfold Obligations.SrdReturnsTheMostRecentWrite
  intro addr b between s t u hswr hrun hbetween
  have ht : memRead t.src addr.toNat = some b := by
    rw [exec_swr_eq, Host.Outcome.next.injEq] at hswr
    rw [← hswr, srcWrite_src, memRead_memWrite_same]
  have hu : memRead u.src addr.toNat = some b :=
    runCommands_keeps (memRead ·.src addr.toNat = some b) between t u
      (fun i hi x y hxy hx => (exec_keeps_byte i addr x y (hbetween i hi) hxy).trans hx) hrun ht
  exact ⟨_, exec_srd_of_written addr b u hu, BitVec.toNat_setWidth_of_le (by decide)⟩

/-! ### What a step can write -/

/-- A step that is no reset runs a command, or leaves the block alone but for STATUS and the character the
host reads from HOUT (R21 to R29). -/
theorem step_block_cases (s t : State) (h : step s = .next t) (hreset : ¬StepsReset s) :
    (∃ i left, StepsCommand s i ∧ exec i (s.withPending left) = .next t) ∨
    (t.res = s.res ∧ SameText s t ∧ t.src = s.src ∧
      (t.hout = s.hout ∨ StepsRead s .readHout ∧ ∃ c, s.hout = c :: t.hout)) := by
  rcases step_cases s t h with ⟨rfl, -⟩ | ⟨w, left, i, hw, hd, hexec⟩ | ⟨_, _, _, -, -, rfl⟩ |
    ⟨_, _, -, rfl, -⟩ | ⟨left, c, cs, hr, hc, rfl⟩ | ⟨left, hr, -⟩
  · exact .inr ⟨rfl, sameText_refl t, rfl, .inl rfl⟩
  · exact .inl ⟨i, left, ⟨w, left, hw, hd⟩, hexec⟩
  · exact .inr ⟨rfl, sameText_refl s, rfl, .inl rfl⟩
  · exact .inr ⟨rfl, sameText_refl s, rfl, .inl rfl⟩
  · exact .inr ⟨rfl, sameText_refl s, rfl, .inr ⟨⟨left, hr⟩, c, hc⟩⟩
  · exact absurd ⟨left, hr⟩ hreset

/-- Settles O38: a step that changes RES runs a command that writes it. -/
theorem onlyFourCommandsWriteRes : Obligations.OnlyFourCommandsWriteRes := by
  unfold Obligations.OnlyFourCommandsWriteRes
  intro s t h hreset hres
  rcases step_block_cases s t h hreset with ⟨i, left, hi, hexec⟩ | ⟨hsame, -⟩
  · exact ⟨i, hi, exec_changes_res i (s.withPending left) t hexec hres⟩
  · exact absurd hsame hres

/-- Settles O39: a step that changes the text buffer runs a command that does. -/
theorem onlyTxclrAndTxputChangeTheText : Obligations.OnlyTxclrAndTxputChangeTheText := by
  unfold Obligations.OnlyTxclrAndTxputChangeTheText
  intro s t h hreset htext
  rcases step_block_cases s t h hreset with ⟨i, left, hi, hexec⟩ | ⟨-, hsame, -⟩
  · rcases exec_changes_text i (s.withPending left) t hexec htext with rfl | ⟨ch, rfl, hroom⟩
    · exact .inl hi
    · exact .inr ⟨ch, hi, hroom⟩
  · exact absurd hsame htext

/-- Settles O40: a step that changes a source byte runs an SWR, which changes no byte but its own. -/
theorem onlySwrChangesASourceByte : Obligations.OnlySwrChangesASourceByte := by
  unfold Obligations.OnlySwrChangesASourceByte
  intro s t a h hreset hread
  rcases step_block_cases s t h hreset with ⟨i, left, hi, hexec⟩ | ⟨-, -, hsame, -⟩
  · rcases exec_src_cases i (s.withPending left) t hexec with hsrc | ⟨addr, b, rfl, hsrc⟩
    · exact absurd (by rw [hsrc, withPending_src]) hread
    · have ha : a = addr.toNat := by
        by_contra hne
        exact hread (by rw [hsrc, memRead_memWrite_other _ _ _ _ hne, withPending_src])
      exact ⟨addr, b, hi, ha, by rw [hsrc, ha, memRead_memWrite_same]⟩
  · exact absurd (by rw [hsame]) hread

/-- Settles O41: a step changes HOUT by the host's read or by a command that appends. -/
theorem houtIsAppendedAndReadFromItsFront : Obligations.HoutIsAppendedAndReadFromItsFront := by
  unfold Obligations.HoutIsAppendedAndReadFromItsFront
  intro s t h hreset
  rcases step_block_cases s t h hreset with ⟨i, left, hi, hexec⟩ | ⟨-, -, -, hsame | hread⟩
  · rcases exec_hout_cases i (s.withPending left) t hexec with hsame | ⟨out, hout, happ⟩
    · exact .inr (.inl hsame)
    · exact .inr (.inr ⟨i, out, hi, hout, happ⟩)
  · exact .inr (.inl hsame)
  · exact .inl hread

/-! ### The causes of the STATUS bits -/

/-- A STATUS bit that a step turns on is ERR_ILL, ERR_RANGE or TRUNC, each by its own cause (R22). -/
theorem step_turns_status_bit_on (s t : State) (b : Nat) (h : step s = .next t)
    (hs : s.status.getLsbD b = false) (ht : t.status.getLsbD b = true) :
    (b = 0 ∧ ∃ w left, NextWord s w left ∧ ∀ i, decode w ≠ .ok i) ∨
    (b = 1 ∧ ∃ i, StepsCommand s i ∧ OutOfRange i) ∨
    (b = 2 ∧ ∃ ch, StepsCommand s (.txput ch) ∧ 14 ≤ s.tlen.toNat) := by
  rcases step_status_cases s t h with hst | ⟨-, hst⟩ | ⟨ch, hi, hfull, hst⟩ | ⟨i, hi, hout, hst⟩ |
    ⟨w, left, e, hw, hd, hst⟩ | ⟨-, hst⟩
  · rw [hst, hs] at ht
    exact absurd ht (by decide)
  · rw [hst, clearTrunc_bit, hs] at ht
    exact absurd ht (by simp)
  · rw [hst, setTrunc_bit, hs, Bool.false_or, beq_iff_eq] at ht
    exact .inr (.inr ⟨ht, ch, hi, hfull⟩)
  · rw [hst, setError_bit, hs, Bool.false_or, beq_iff_eq] at ht
    exact .inr (.inl ⟨ht, i, hi, hout⟩)
  · rw [hst, setError_bit, hs, Bool.false_or, beq_iff_eq] at ht
    exact .inl ⟨ht, w, left, hw, fun i => by simp [hd]⟩
  · rw [hst] at ht
    exact absurd ht (by simp)

/-- Settles O32: ERR_ILL, ERR_RANGE and TRUNC are STATUS bits 0, 1 and 2. -/
theorem statusBitsHaveTheirOwnCauses : Obligations.StatusBitsHaveTheirOwnCauses := by
  unfold Obligations.StatusBitsHaveTheirOwnCauses
  refine fun s t h => ⟨fun hs ht => ?_, fun hs ht => ?_, fun hs ht => ?_⟩
  · simpa using step_turns_status_bit_on s t 0 h hs ht
  · simpa using step_turns_status_bit_on s t 1 h hs ht
  · simpa using step_turns_status_bit_on s t 2 h hs ht

/-- A word that is the next action is the only one. -/
theorem nextWord_unique {s : State} {w w' : Word} {left left' : List HostAction} (h : NextWord s w left)
    (h' : NextWord s w' left') : w = w' := by
  rw [NextWord, h] at h'
  simp only [Option.some.injEq, Prod.mk.injEq, HostAction.writeCmd.injEq] at h'
  exact h'.1

/-- Settles O30: both bits at once would need one word to be illegal and a command; an error comes before
any read. -/
theorem atMostOneErrorBitAStep : Obligations.AtMostOneErrorBitAStep := by
  unfold Obligations.AtMostOneErrorBitAStep
  refine ⟨fun s t h hill hrange => ?_, fun i s hout f => ?_, fun s w left hw hd => ?_⟩
  · by_contra hboth
    obtain ⟨htill, htrange⟩ := not_or.mp hboth
    obtain ⟨w, left, hw, hd⟩ : ∃ w left, NextWord s w left ∧ ∀ i, decode w ≠ .ok i := by
      simpa using step_turns_status_bit_on s t 0 h hill (Bool.not_eq_false _ ▸ htill)
    obtain ⟨i, ⟨w', left', hw', hd'⟩, -⟩ : ∃ i, StepsCommand s i ∧ OutOfRange i := by
      simpa using step_turns_status_bit_on s t 1 h hrange (Bool.not_eq_false _ ▸ htrange)
    exact hd i (nextWord_unique hw hw' ▸ hd')
  · rw [exec_of_outOfRange i s hout]
    exact nofun
  · cases he : decode w with
    | ok i => exact absurd he (hd i)
    | error e =>
      refine ⟨_, step_word_illegal s w left e hw he, ?_⟩
      rw [State.errRange, raise_status, setError_bit]
      exact Bool.or_false _

end Sys2Proof.Machine

/-! PROOFS. The host's side: the word a step runs, reset, the port reads, waiting reads, the order of the commands, and the stream of characters the host reads (10_state.md R20 to R30, 70_reset_and_hazards.md R250 to R258). -/

namespace Sys2Proof.Machine

/-! ### The next action -/

/-- Settles O5: a word in front of everything pending is the next action. -/
theorem stepRunsTheDecodedCommand : Obligations.StepRunsTheDecodedCommand := by
  unfold Obligations.StepRunsTheDecodedCommand
  exact ⟨step_word_ok, fun s nbits w => selectAction_cons _ _ _ (by simp)⟩

/-- Settles O36: reset gives the block of the reset state. -/
theorem resetGivesTheResetValues : Obligations.ResetGivesTheResetValues := by
  unfold Obligations.ResetGivesTheResetValues
  intro s left h
  exact ⟨_, step_reset s left h, rfl, rfl, rfl, fun r c _ _ => maskRead_maskClear r c, rfl, fun _ => rfl, rfl, rfl⟩

/-- Settles O42: a read of a port delivers its value, and HOUT's alone takes the character away. -/
theorem portReadsReturnAndKeep : Obligations.PortReadsReturnAndKeep := by
  unfold Obligations.PortReadsReturnAndKeep
  refine fun s left => ⟨fun h => ?_, fun h => ?_, fun h => ?_⟩
  · exact ⟨_, step_readRes s left h, rfl, rfl, rfl, rfl, rfl, sameText_refl s, sameMask_refl s, sameSrc_refl s⟩
  · exact ⟨_, _, step_readStatus s left h, rfl, fun i _ => statusRead_bit s.status i, rfl, rfl, rfl, rfl,
      sameText_refl s, sameMask_refl s, sameSrc_refl s⟩
  · obtain ⟨c, cs, hc⟩ := step_readHout_cases s left h
    exact ⟨_, c, step_readHout s left c cs h hc, hc, rfl, rfl, rfl, rfl, sameText_refl s, sameMask_refl s,
      sameSrc_refl s⟩

/-- Reads of an empty HOUT wait, and the word behind them goes ahead (R29, R233). -/
theorem selectAction_reads_word (reads : Nat) (w : Word) (rest : List HostAction) :
    selectAction [] (List.replicate reads .readHout ++ .writeCmd w :: rest) =
      some (.writeCmd w, List.replicate reads .readHout ++ rest) := by
  induction reads with
  | zero => exact selectAction_cons _ _ _ (by simp)
  | succ reads ih =>
    rw [List.replicate_succ, List.cons_append, selectAction_waiting, ih, Option.map_some, List.cons_append]

/-- Settles O43: with nothing but waiting reads no action can be chosen. -/
theorem readsOfAnEmptyHoutWait : Obligations.ReadsOfAnEmptyHoutWait := by
  unfold Obligations.ReadsOfAnEmptyHoutWait
  refine ⟨fun s hout hpending hreads => ?_, fun s reads w rest hout hpending => ?_, fun s hpending => ?_⟩
  · have hnone := (selectAction_none s.hout s.pending).mpr fun a ha => ⟨hreads a ha, hout⟩
    rw [step_none s hnone, waitForHost, if_neg hpending]
  · rw [NextWord, hout, hpending]
    exact selectAction_reads_word reads w rest
  · have hnone : selectAction s.hout s.pending = none := by rw [hpending]; rfl
    rw [step_none s hnone, waitForHost, if_pos hpending]

/-! ### The order of the commands -/

/-- The chosen action has only waiting reads in front of it, which stay (R20, R29). -/
theorem selectAction_split (hout : List Byte) (p left : List HostAction) (a : HostAction)
    (h : selectAction hout p = some (a, left)) :
    ∃ reads rest, p = List.replicate reads .readHout ++ a :: rest ∧ left = List.replicate reads .readHout ++ rest := by
  induction p generalizing left with
  | nil => simp [selectAction] at h
  | cons c rest ih =>
    by_cases hwait : c = .readHout ∧ hout = []
    · obtain ⟨rfl, rfl⟩ := hwait
      rw [selectAction_waiting, Option.map_eq_some_iff] at h
      obtain ⟨⟨b, l⟩, hb, he⟩ := h
      obtain ⟨rfl, rfl⟩ := Prod.mk.inj he
      obtain ⟨reads, rest', rfl, rfl⟩ := ih l hb
      exact ⟨reads + 1, rest', rfl, rfl⟩
    · rw [selectAction_cons _ _ _ hwait, Option.some.injEq, Prod.mk.injEq] at h
      obtain ⟨rfl, rfl⟩ := h
      exact ⟨0, rest, rfl, rfl⟩

theorem wordsOf_reads_append (reads : Nat) (p : List HostAction) :
    wordsOf (List.replicate reads .readHout ++ p) = wordsOf p := by
  simp [wordsOf, List.filterMap_append]

/-- A step that goes on with something pending takes its action away, and leaves the others pending. -/
theorem step_pending (s t : State) (h : step s = .next t) :
    t = s ∨ ∃ a, selectAction s.hout s.pending = some (a, t.pending) := by
  rcases step_cases s t h with ⟨rfl, -⟩ | ⟨w, left, i, hw, -, hexec⟩ | ⟨w, left, _, hw, -, rfl⟩ |
    ⟨left, _, -, rfl, ⟨hr, -⟩ | ⟨hr, -⟩⟩ | ⟨left, _, _, hr, -, rfl⟩ | ⟨left, hr, rfl⟩
  · exact .inl rfl
  · obtain ⟨hpending, -⟩ := exec_keeps_host i (s.withPending left) t hexec
    exact .inr ⟨_, hw.trans (by rw [hpending, withPending_pending])⟩
  · exact .inr ⟨_, hw⟩
  all_goals exact .inr ⟨_, hr⟩

/-- Settles O45: a step takes one action away, with nothing but reads of HOUT in front of it. -/
theorem commandsKeepTheHostsOrder : Obligations.CommandsKeepTheHostsOrder := by
  unfold Obligations.CommandsKeepTheHostsOrder
  intro s t h
  rcases step_pending s t h with rfl | ⟨a, ha⟩
  · exact .inl rfl
  · obtain ⟨reads, rest, hs, ht⟩ := selectAction_split _ _ _ _ ha
    rw [hs, ht, wordsOf_reads_append, wordsOf_reads_append, ← ht]
    cases a with
    | writeCmd w => exact .inr ⟨w, rfl, ha⟩
    | readRes | readStatus | readHout | reset => exact .inl rfl

/-! ### The stream of characters -/

/-- A step that is no reset leaves the stream as it is or makes it longer at its end (R258). -/
theorem step_stream (s t : State) (h : step s = .next t) (hreset : ¬StepsReset s) : s.stream <+: t.stream := by
  rcases step_cases s t h with ⟨rfl, -⟩ | ⟨w, left, i, hw, hd, hexec⟩ | ⟨w, left, e, hw, hd, rfl⟩ |
    ⟨left, v, hv, rfl, -⟩ | ⟨left, c, cs, hr, hc, rfl⟩ | ⟨left, hr, -⟩
  · exact List.prefix_rfl
  · obtain ⟨-, hreceived⟩ := exec_keeps_host i (s.withPending left) t hexec
    rw [State.stream, State.stream, hreceived, withPending_received]
    rcases exec_hout_cases i (s.withPending left) t hexec with hout | ⟨out, hout, -⟩
    · rw [hout, withPending_hout]
    · rw [hout, withPending_hout, ← List.append_assoc]
      exact List.prefix_append _ _
  · exact List.prefix_rfl
  · have hchar : v.char? = none := by
      cases v with
      | hout c => exact absurd rfl (hv c)
      | res | status => rfl
    simp [State.stream, List.filterMap_append, hchar]
  · simp [State.stream, List.filterMap_append, hc, PortValue.char?]
  · exact absurd ⟨left, hr⟩ hreset

/-- With no reset pending, a step is none and leaves none pending. -/
theorem step_keeps_no_reset (s t : State) (h : step s = .next t) (hs : HostAction.reset ∉ s.pending) :
    ¬StepsReset s ∧ HostAction.reset ∉ t.pending := by
  refine ⟨fun ⟨left, hr⟩ => hs (selectAction_mem _ _ _ _ hr).1, ?_⟩
  rcases step_pending s t h with rfl | ⟨a, ha⟩
  · exact hs
  · exact fun hmem => hs ((selectAction_mem _ _ _ _ ha).2 _ hmem)

/-- A run that goes on goes on at its first step, and from there for the steps left. -/
theorem run_succ_next (M : Host.Core) (k : Nat) (s t : M.State) (h : M.run (k + 1) s = .next t) :
    ∃ u, M.step s = .next u ∧ M.run k u = .next t := by
  rw [Host.Core.run] at h
  cases hs : M.step s with
  | next u =>
    rw [hs] at h
    exact ⟨u, rfl, h⟩
  | fault f => simp [hs] at h
  | refused r => simp [hs] at h

/-- Settles O44: by induction on the number of steps, each of which only makes the stream longer. -/
theorem hostReadsHoutInOrder : Obligations.HostReadsHoutInOrder := by
  unfold Obligations.HostReadsHoutInOrder
  intro k
  induction k with
  | zero =>
    intro s t h _
    obtain rfl : s = t := Host.Outcome.next.inj h
    exact List.prefix_rfl
  | succ k ih =>
    intro s t h hs
    obtain ⟨u, hstep, hrun⟩ := run_succ_next Sys2Proof.core k s t h
    obtain ⟨hreset, hu⟩ := step_keeps_no_reset s u hstep hs
    exact (step_stream s u hstep hreset).trans (ih u t hrun hu)

end Sys2Proof.Machine

/-! PROOFS. The invariant: the characters of records, each operation on the state, each command and each step (10_state.md R22 to R27, 41_render.md R131, 43_hex.md R180 to R184). -/

namespace Sys2Proof.Machine

/-! ### Characters of records -/

theorem recordChar_hexDigit (v : BitVec 4) : recordChar (hexDigit v) = true := by
  revert v; decide +revert

theorem all_recordChar_dataRecord (a : Addr) (data : List Byte) : (dataRecord a data).all recordChar = true := by
  have hcolon : recordChar colon = true := by decide
  have hlf : recordChar lineFeed = true := by decide
  simp [dataRecord, hex4, hex2, recordChar_hexDigit, hcolon, hlf]

theorem all_recordChar_eofRecord : eofRecord.all recordChar = true := by decide

theorem all_recordChar_of_chunkRecord (m : Memory) (a n : Nat) (cs : List Byte) (h : chunkRecord m a n = .ok cs) :
    cs.all recordChar = true := by
  rw [chunkRecord] at h
  split at h
  · rw [← Except.ok.inj h]
    exact all_recordChar_dataRecord _ _
  · simp at h

theorem all_recordChar_of_encodeFrom (m : Memory) (len fuel a : Nat) (cs : List Byte)
    (h : encodeFrom m len fuel a = .ok cs) : cs.all recordChar = true := by
  induction fuel generalizing a cs with
  | zero =>
    rw [encodeFrom, Except.ok.injEq] at h
    rw [← h, all_recordChar_eofRecord]
  | succ fuel ih =>
    rw [encodeFrom] at h
    by_cases hlt : a < len
    · rw [if_pos hlt] at h
      cases hfirst : chunkRecord m a (min 16 (len - a)) with
      | error f => simp [hfirst] at h
      | ok first =>
        cases hrest : encodeFrom m len fuel (a + 16) with
        | error f => simp [hfirst, hrest] at h
        | ok rest =>
          simp only [hfirst, hrest, Except.ok.injEq] at h
          rw [← h, List.all_append, all_recordChar_of_chunkRecord _ _ _ _ hfirst, ih _ _ hrest, Bool.and_self]
    · rw [if_neg hlt, Except.ok.injEq] at h
      rw [← h, all_recordChar_eofRecord]

/-! ### Operations on the state -/

/-- Settles O34: every clause holds of the reset values. -/
theorem invariantHoldsAtReset : Obligations.InvariantHoldsAtReset where
  tlen_le := by decide
  status_reserved := by simp [State.reset]
  trunc_full := by decide
  mem_wf := ⟨List.Pairwise.nil, by simp [State.reset]⟩
  keep_out := fun r c _ => maskRead_maskClear r c
  hout_chars := by simp [State.reset]

/-- An error sets bit 0 or bit 1 and leaves TRUNC and the reserved bits alone (R22). -/
theorem setError_bit_of_two_le (k : ErrorKind) (st : Word) (i : Nat) (hi : 2 ≤ i) :
    (setError k st).getLsbD i = st.getLsbD i := by
  have h0 : i ≠ 0 := by omega
  have h1 : i ≠ 1 := by omega
  rw [setError_bit]
  cases k with
  | ill => simp [h0]
  | range => simp [h1]

section
variable {s : State} (h : Inv s)
include h

/-- The invariant speaks of no part but STATUS, the text's length, the mask, the Source Memory and HOUT. -/
theorem Inv.congr {t : State} (hstatus : t.status = s.status) (htlen : t.tlen = s.tlen) (hmask : t.mask = s.mask)
    (hsrc : t.src = s.src) (hhout : t.hout = s.hout) : Inv t where
  tlen_le := htlen ▸ h.tlen_le
  status_reserved := hstatus ▸ h.status_reserved
  trunc_full := by
    rw [State.trunc, hstatus, htlen]
    exact h.trunc_full
  mem_wf := hsrc ▸ h.mem_wf
  keep_out := hmask ▸ h.keep_out
  hout_chars := hhout ▸ h.hout_chars

theorem Inv.setRes (v : Word) : Inv (s.setRes v) := h.congr rfl rfl rfl rfl rfl

theorem Inv.withPending (left : List HostAction) : Inv (s.withPending left) := h.congr rfl rfl rfl rfl rfl

theorem Inv.deliver (v : PortValue) : Inv (s.deliver v) := h.congr rfl rfl rfl rfl rfl

theorem Inv.raise (k : ErrorKind) : Inv (s.raise k) where
  tlen_le := h.tlen_le
  status_reserved := fun i hi => (setError_bit_of_two_le k s.status i (by omega)).trans (h.status_reserved i hi)
  trunc_full := fun ht => h.trunc_full ((setError_bit_of_two_le k s.status 2 le_rfl).symm.trans ht)
  mem_wf := h.mem_wf
  keep_out := h.keep_out
  hout_chars := h.hout_chars

theorem Inv.clearText : Inv s.clearText where
  tlen_le := by simp
  status_reserved := fun i hi => by rw [clearText_status, clearTrunc_bit, h.status_reserved i hi, Bool.false_and]
  trunc_full := fun ht => by
    rw [State.trunc, clearText_status, clearTrunc_bit, bne_self_eq_false, Bool.and_false] at ht
    exact absurd ht Bool.false_ne_true
  mem_wf := h.mem_wf
  keep_out := h.keep_out
  hout_chars := h.hout_chars

/-- With room TRUNC is 0 and stays so; without, the buffer holds 14 codes (R122). -/
theorem Inv.pushChar (ch : Byte) : Inv (s.pushChar ch) := by
  have hle := h.tlen_le
  rcases Nat.lt_or_ge s.tlen.toNat 14 with hroom | hfull
  · have hlen := pushChar_tlen s ch hroom
    have hstatus := pushChar_status_of_room s ch hroom
    refine ⟨by omega, hstatus ▸ h.status_reserved, fun ht => ?_, pushChar_src s ch ▸ h.mem_wf,
      pushChar_mask s ch ▸ h.keep_out, pushChar_hout s ch ▸ h.hout_chars⟩
    rw [State.trunc, hstatus] at ht
    exact absurd (h.trunc_full ht) (Nat.ne_of_lt hroom)
  · rw [pushChar_of_full s ch hfull]
    refine ⟨hle, fun i hi => ?_, fun _ => le_antisymm hle hfull, h.mem_wf, h.keep_out, h.hout_chars⟩
    rw [setTrunc_bit, h.status_reserved i hi, Bool.false_or, beq_eq_false_iff_ne]
    omega

theorem Inv.srcWrite (addr : Addr) (b : Byte) : Inv (s.srcWrite addr b) :=
  { h with mem_wf := srcWrite_wf s addr b h.mem_wf }

theorem Inv.emit {cs : List Byte} (hcs : cs.all recordChar = true) : Inv (s.emit cs) where
  tlen_le := h.tlen_le
  status_reserved := h.status_reserved
  trunc_full := h.trunc_full
  mem_wf := h.mem_wf
  keep_out := h.keep_out
  hout_chars := List.forall_mem_append.mpr ⟨h.hout_chars, List.all_eq_true.mp hcs⟩

/-- A host read of HOUT leaves fewer characters of records. -/
theorem Inv.houtTail {c : Byte} {cs : List Byte} (hc : s.hout = c :: cs) : Inv { s with hout := cs } :=
  { h with hout_chars := fun d hd => h.hout_chars d (hc ▸ List.mem_cons_of_mem c hd) }

theorem Inv.render :
    Inv { s with mask := renderMask Config.glyphRom s.text, res := layoutReport s.text } :=
  { h with keep_out := renderMask_keeps_out Config.glyphRom s.text (text_length_le s) }

/-! ### Commands and steps -/

theorem Inv.exec {i : Instr} {t : State} (hexec : exec i s = .next t) : Inv t := by
  rcases exec_cases i s t hexec with ⟨-, rfl⟩ | ⟨ch, -, rfl⟩ | ⟨-, rfl⟩ | ⟨v, -, rfl⟩ | ⟨v, -, rfl⟩ | ⟨v, -, rfl⟩ |
    ⟨addr, b, -, rfl⟩ | ⟨_, _, _, -, hcs, rfl⟩ | ⟨-, rfl⟩ | ⟨_, _, -, hcs, rfl⟩ | ⟨-, rfl⟩
  · exact h.clearText
  · exact h.pushChar ch
  · exact h.render
  · exact h.setRes v
  · exact h.setRes v
  · exact h.setRes v
  · exact h.srcWrite addr b
  · exact h.emit (all_recordChar_of_chunkRecord _ _ _ _ hcs)
  · exact h.emit all_recordChar_eofRecord
  · exact h.emit (all_recordChar_of_encodeFrom _ _ _ _ _ hcs)
  · exact h.raise .range

end

/-- Settles O35: every operation a step can be made of keeps the invariant. -/
theorem everyStepKeepsTheInvariant : Obligations.EveryStepKeepsTheInvariant := by
  unfold Obligations.EveryStepKeepsTheInvariant
  intro s t h hstep
  rcases step_cases s t hstep with ⟨rfl, -⟩ | ⟨_, left, _, -, -, hexec⟩ | ⟨_, left, _, -, -, rfl⟩ |
    ⟨left, v, -, rfl, -⟩ | ⟨left, c, cs, -, hc, rfl⟩ | ⟨left, -, rfl⟩
  · exact h
  · exact (h.withPending left).exec hexec
  · exact (h.withPending left).raise .ill
  · exact (h.withPending left).deliver v
  · exact ((h.withPending left).houtTail hc).deliver (.hout c)
  · exact Inv.congr invariantHoldsAtReset rfl rfl rfl rfl rfl

end Sys2Proof.Machine

/-! PROOFS. The assembler: its words decode to its commands, the ten forms in plain numbers, and the pseudo-instructions (30_encoding.md R78, R79). -/

namespace Sys2Proof.Machine

/-! ### Operands -/

theorem fits_num_iff (width n : Nat) : (Operand.num n).fits width = true ↔ n < 2 ^ width := by
  rw [Operand.fits, Bool.and_eq_true, decide_eq_true_eq]
  exact and_iff_right rfl

/-- A quoted character fits a field of 8 bits exactly where it is ASCII (R78; log entry 12). -/
theorem fits_chr_iff (c : Char) : (Operand.chr c).fits 8 = true ↔ c.toNat < 0x80 := by
  rw [Operand.fits, Operand.ascii, Operand.value, Bool.and_eq_true, decide_eq_true_eq, decide_eq_true_eq]
  omega

theorem and_eq_true_iff_and {x y : Bool} {p q : Prop} (hx : x = true ↔ p) (hy : y = true ↔ q) :
    (x && y) = true ↔ p ∧ q := by
  rw [Bool.and_eq_true, hx, hy]

/-- A number that fits its field is not changed by it. -/
theorem setWidth_ofNat8 {n : Nat} (h : n < 0x100) : (BitVec.ofNat 8 n).setWidth 32 = BitVec.ofNat 32 n :=
  BitVec.setWidth_ofNat_of_le_of_lt (by decide) h

theorem setWidth_ofNat16 {n : Nat} (h : n < 0x10000) : (BitVec.ofNat 16 n).setWidth 32 = BitVec.ofNat 32 n :=
  BitVec.setWidth_ofNat_of_le_of_lt (by decide) h

/-! ### Lines -/

/-- The words of an accepted line decode to its commands (R78). -/
theorem map_decode_of_assemble (a : Asm) (ws : List Word) (h : assemble a = some ws) :
    ws.map decode = (expand a).map .ok := by
  rw [assemble] at h
  split at h
  · rw [← Option.some.inj h, List.map_map]
    exact List.map_congr_left fun i _ => decodeOfEncodeIsTheCommand i
  · simp at h

theorem assemble_eq_none_iff (a : Asm) : assemble a = none ↔ a.wellFormed = false := by
  rw [assemble]
  cases a.wellFormed <;> simp

/-- What a line gives, where the condition `p` says that it is accepted and `ws` are then its words. -/
theorem assemble_eq_ite (a : Asm) (p : Prop) [Decidable p] (ws : List Word) (hwf : a.wellFormed = true ↔ p)
    (hws : p → (expand a).map encode = ws) : assemble a = if p then some ws else none := by
  rw [assemble]
  by_cases hp : p
  · rw [if_pos hp, if_pos (hwf.mpr hp), hws hp]
  · rw [if_neg hp, if_neg (mt hwf.mp hp)]

/-- Such a line that stands for one command. -/
theorem assemble_command_eq_ite (a : Asm) (p : Prop) [Decidable p] (i : Instr) (w : Word)
    (hwf : a.wellFormed = true ↔ p) (hexpand : expand a = [i]) (hw : p → encode i = w) :
    assemble a = if p then some [w] else none :=
  assemble_eq_ite a p [w] hwf fun hp => by rw [hexpand, List.map_singleton, hw hp]

/-! ### The words of the ten forms -/

theorem encode_txput_ofNat (ch : Nat) (h : ch < 0x100) :
    encode (.txput (BitVec.ofNat 8 ch)) = 0x02000000#32 ||| BitVec.ofNat 32 ch := by
  rw [encode, setWidth_ofNat8 h]

theorem encode_mrd_ofNat (row col : Nat) (hrow : row < 0x100) (hcol : col < 0x100) :
    encode (.mrd (BitVec.ofNat 8 row) (BitVec.ofNat 8 col)) =
      0x04000000#32 ||| BitVec.ofNat 32 row <<< 8 ||| BitVec.ofNat 32 col := by
  rw [encode, setWidth_ofNat8 hrow, setWidth_ofNat8 hcol]

theorem encode_glu_ofNat (ch row : Nat) (hch : ch < 0x100) (hrow : row < 0x100) :
    encode (.glu (BitVec.ofNat 8 ch) (BitVec.ofNat 8 row)) =
      0x05000000#32 ||| BitVec.ofNat 32 row <<< 8 ||| BitVec.ofNat 32 ch := by
  rw [encode, setWidth_ofNat8 hrow, setWidth_ofNat8 hch]

theorem encode_swr_ofNat (addr byte : Nat) (haddr : addr < 0x10000) (hbyte : byte < 0x100) :
    encode (.swr (BitVec.ofNat 16 addr) (BitVec.ofNat 8 byte)) =
      0x10000000#32 ||| BitVec.ofNat 32 addr <<< 8 ||| BitVec.ofNat 32 byte := by
  rw [encode, setWidth_ofNat16 haddr, setWidth_ofNat8 hbyte]

theorem encode_srd_ofNat (addr : Nat) (haddr : addr < 0x10000) :
    encode (.srd (BitVec.ofNat 16 addr)) = 0x11000000#32 ||| BitVec.ofNat 32 addr <<< 8 := by
  rw [encode, setWidth_ofNat16 haddr]

theorem encode_hxrec_ofNat (addr n : Nat) (haddr : addr < 0x10000) (hn : n < 0x20) :
    encode (.hxrec (BitVec.ofNat 16 addr) (BitVec.ofNat 5 n)) =
      0x12000000#32 ||| BitVec.ofNat 32 addr <<< 8 ||| BitVec.ofNat 32 n := by
  rw [encode, setWidth_ofNat16 haddr, BitVec.setWidth_ofNat_of_le_of_lt (by decide) hn]

theorem encode_encode_ofNat (len : Nat) (h : len < 0x20000) :
    encode (.encode (BitVec.ofNat 17 len)) = 0x14000000#32 ||| BitVec.ofNat 32 len := by
  rw [encode, BitVec.setWidth_ofNat_of_le_of_lt (by decide) h]

/-- Settles O46: a line is accepted where its operands fit, and then each field holds its number. -/
theorem assembledWordsDecodeToTheirCommands : Obligations.AssembledWordsDecodeToTheirCommands := by
  unfold Obligations.AssembledWordsDecodeToTheirCommands
  refine ⟨map_decode_of_assemble, assemble_eq_none_iff, rfl, fun ch => ?_, fun c => ?_, rfl, fun row col => ?_,
    fun ch row => ?_, fun c row => ?_, fun addr byte => ?_, fun addr => ?_, fun addr n => ?_, rfl, fun len => ?_⟩
  · exact assemble_command_eq_ite _ _ _ _ (fits_num_iff 8 ch) rfl (encode_txput_ofNat ch)
  · exact assemble_command_eq_ite _ _ _ _ (fits_chr_iff c) rfl fun h => encode_txput_ofNat c.toNat (by omega)
  · exact assemble_command_eq_ite _ _ _ _ (and_eq_true_iff_and (fits_num_iff 8 row) (fits_num_iff 8 col)) rfl
      fun h => encode_mrd_ofNat row col h.1 h.2
  · exact assemble_command_eq_ite _ _ _ _ (and_eq_true_iff_and (fits_num_iff 8 ch) (fits_num_iff 8 row)) rfl
      fun h => encode_glu_ofNat ch row h.1 h.2
  · exact assemble_command_eq_ite _ _ _ _ (and_eq_true_iff_and (fits_chr_iff c) (fits_num_iff 8 row)) rfl
      fun h => encode_glu_ofNat c.toNat row (by omega) h.2
  · exact assemble_command_eq_ite _ _ _ _ (and_eq_true_iff_and (fits_num_iff 16 addr) (fits_num_iff 8 byte)) rfl
      fun h => encode_swr_ofNat addr byte h.1 h.2
  · exact assemble_command_eq_ite _ _ _ _ (fits_num_iff 16 addr) rfl (encode_srd_ofNat addr)
  · exact assemble_command_eq_ite _ _ _ _ (and_eq_true_iff_and (fits_num_iff 16 addr) (fits_num_iff 5 n)) rfl
      fun h => encode_hxrec_ofNat addr n h.1 h.2
  · exact assemble_command_eq_ite _ _ _ _ (fits_num_iff 17 len) rfl (encode_encode_ofNat len)

/-! ### Pseudo-instructions -/

/-- The words of SWRs of consecutive bytes, as the numbers of their operands (R79). -/
theorem map_encode_loadCommands (addr : Nat) (bs : List Byte) (h : addr + bs.length ≤ 0x10000) :
    (loadCommands addr (bs.map fun b => .num b.toNat)).map encode =
      (List.range bs.length).map fun j =>
        0x10000000#32 ||| BitVec.ofNat 32 (addr + j) <<< 8 ||| BitVec.ofNat 32 (bs.getD j 0).toNat := by
  induction bs generalizing addr with
  | nil => rfl
  | cons b bs ih =>
    rw [List.length_cons] at h
    rw [List.map_cons, loadCommands, List.map_cons, Operand.value, encode_swr_ofNat addr _ (by omega) b.isLt,
      ih (addr + 1) (by omega), List.length_cons, List.range_succ_eq_map, List.map_cons, List.map_map]
    refine congrArg (List.cons _) (List.map_congr_left fun j _ => ?_)
    rw [Function.comp_apply, Nat.succ_eq_add_one, List.getD_cons_succ, Nat.add_right_comm, Nat.add_assoc addr j 1]

/-- FILL stands for the commands of a LOADBUF of equal bytes (R79). -/
theorem map_encode_loadCommands_replicate (addr m : Nat) (v : Byte) (h : addr + m ≤ 0x10000) :
    (loadCommands addr (List.replicate m (.num v.toNat))).map encode =
      (List.range m).map fun j =>
        0x10000000#32 ||| BitVec.ofNat 32 (addr + j) <<< 8 ||| BitVec.ofNat 32 v.toNat := by
  have hload := map_encode_loadCommands addr (List.replicate m v) (by rwa [List.length_replicate])
  rw [List.map_replicate, List.length_replicate] at hload
  rw [hload]
  refine List.map_congr_left fun j hj => ?_
  rw [List.getD_replicate _ (List.mem_range.mp hj)]

theorem fits_num_byte (b : Byte) : (Operand.num b.toNat).fits 8 = true := (fits_num_iff 8 b.toNat).mpr b.isLt

theorem wellFormed_loadbuf_iff (addr : Nat) (bs : List Byte) :
    (Asm.loadbuf (.num addr) (bs.map fun b => .num b.toNat)).wellFormed = true ↔
      addr < 0x10000 ∧ addr + bs.length ≤ 0x10000 := by
  have hbytes : (bs.map fun b => Operand.num b.toNat).all (·.fits 8) = true := by simp [fits_num_byte]
  rw [Asm.wellFormed, hbytes, Bool.and_true, List.length_map]
  exact and_eq_true_iff_and (fits_num_iff 16 addr) decide_eq_true_iff

theorem wellFormed_fill_iff (addr m : Nat) (v : Byte) :
    (Asm.fill (.num addr) (.num m) (.num v.toNat)).wellFormed = true ↔ addr < 0x10000 ∧ addr + m ≤ 0x10000 := by
  rw [Asm.wellFormed, fits_num_byte, Bool.and_true, Operand.ascii, Bool.and_true]
  exact and_eq_true_iff_and (fits_num_iff 16 addr) decide_eq_true_iff

/-- Settles O47: TXSTR's codes fit their fields, and LOADBUF and FILL are refused past 0xFFFF alone. -/
theorem pseudoInstructionsExpandAsListed : Obligations.PseudoInstructionsExpandAsListed := by
  unfold Obligations.PseudoInstructionsExpandAsListed
  refine ⟨fun cs hcs => ?_, fun addr bs => ?_, fun addr m v => ?_⟩
  · have hwf : (Asm.txstr cs).wellFormed = true :=
      List.all_eq_true.mpr fun c hc => (fits_chr_iff c).mpr (hcs c hc)
    rw [assemble, if_pos hwf, expand, List.map_cons, List.map_map]
    refine congrArg (fun ws => some (0x01000000#32 :: ws)) (List.map_congr_left fun c hc => ?_)
    have hascii := hcs c hc
    exact encode_txput_ofNat c.toNat (by omega)
  · exact assemble_eq_ite _ _ _ (wellFormed_loadbuf_iff addr bs) fun h => map_encode_loadCommands addr bs h.2
  · exact assemble_eq_ite _ _ _ (wellFormed_fill_iff addr m v) fun h =>
      map_encode_loadCommands_replicate addr m v h.2

end Sys2Proof.Machine
